-- ==== Sys2Proof/Word.lean ====
section
/-! DEFINITION. The two widths the block moves as bits: the byte (R7) and the 32-bit word (R8). -/

namespace Sys2Proof

/-- A byte, 8 bits (R7). -/
abbrev Byte := BitVec 8

/-- A 32-bit value: a tag image, a checksum, a length field (R8, R21). -/
abbrev Word := BitVec 32

end Sys2Proof
end

