-- ==== Sys2Proof/Syntax.lean ====
section
/-! DEFINITION. The 21 commands of the opcode map (R77), one constructor each. -/

namespace Sys2Proof

/-- A command with its operands: one byte (format B), four bytes (format Q), a text (format T), or none
(format Z) (R76). -/
inductive Instr where
  /-- `CRC.INIT` (R104). -/
  | crcInit
  /-- `CRC.UPD d` (R105). -/
  | crcUpd (d : Byte)
  /-- `CRC.FIN` (R106). -/
  | crcFin
  /-- `TAG.LDB b0 b1 b2 b3` (R119). -/
  | tagLdb (b0 b1 b2 b3 : Byte)
  /-- `TAG.LDT s` (R120). -/
  | tagLdt (text : List Byte)
  /-- `TAG.RDT` (R122). -/
  | tagRdt
  /-- `TAG.CMP b0 b1 b2 b3` (R123). -/
  | tagCmp (b0 b1 b2 b3 : Byte)
  /-- `TAG.CRIT` (R124). -/
  | tagCrit
  /-- `TAG.PUB` (R125). -/
  | tagPub
  /-- `TAG.RSV` (R126). -/
  | tagRsv
  /-- `TAG.SAFE` (R127). -/
  | tagSafe
  /-- `CH.NEW` (R140). -/
  | chNew
  /-- `CH.PARSE` (R141). -/
  | chParse
  /-- `CH.SER` (R142). -/
  | chSer
  /-- `CH.TXT` (R143). -/
  | chTxt
  /-- `CT.NEW` (R160). -/
  | ctNew
  /-- `CT.PARSE` (R161). -/
  | ctParse
  /-- `CT.SER` (R162). -/
  | ctSer
  /-- `CT.APP` (R163). -/
  | ctApp
  /-- `CT.FIND s` (R164). -/
  | ctFind (key : List Byte)
  /-- `CT.REM s` (R165). -/
  | ctRem (key : List Byte)
  deriving DecidableEq, Repr

end Sys2Proof
end

