-- ==== Sys2Proof/WellFormed.lean ====
section
/-! DEFINITION. Which terms of `Instr` are commands a host can present: a text operand has at most 255
bytes, because its count is one byte (R76). -/

namespace Sys2Proof

/-- The text operand fits its count byte (R76). -/
def textFits (text : List Byte) : Bool := text.length ≤ 255

/-- The command can be written as a command string (R76). -/
def Instr.wf : Instr → Bool
  | .tagLdt text => textFits text
  | .ctFind key => textFits key
  | .ctRem key => textFits key
  | .crcInit | .crcUpd _ | .crcFin | .tagLdb _ _ _ _ | .tagRdt | .tagCmp _ _ _ _ => true
  | .tagCrit | .tagPub | .tagRsv | .tagSafe | .chNew | .chParse | .chSer | .chTxt => true
  | .ctNew | .ctParse | .ctSer | .ctApp => true

end Sys2Proof
end

