-- ==== Sys2Proof/Decode.lean ====
section
/-! DEFINITION. Command strings (R76 to R78): the decoder, total on every byte string and rejecting by
name, and after it the encoder, written from the same table. -/

namespace Sys2Proof

/-- Why a byte string is no command (R78). -/
inductive DecodeError where
  /-- The string has no opcode byte: shorter than every format (R78). -/
  | emptyString
  /-- The opcode byte is one of the 235 reserved codes (R78). -/
  | reservedOpcode (op : Byte)
  /-- The string's length does not fit the format of its opcode (R78). -/
  | badLength (op : Byte)
  deriving DecidableEq, Repr

/-- Format Z, `[op]`: no operand byte (R76). -/
def decodeZ (op : Byte) (i : Instr) : List Byte → Except DecodeError Instr
  | [] => .ok i
  | _ :: _ => .error (.badLength op)

/-- Format B, `[op, d]`: one data byte (R76). -/
def decodeB (op : Byte) (f : Byte → Instr) : List Byte → Except DecodeError Instr
  | [d] => .ok (f d)
  | _ => .error (.badLength op)

/-- Format Q, `[op, b0, b1, b2, b3]`: four raw bytes, tag byte 0 first (R76). -/
def decodeQ (op : Byte) (f : Byte → Byte → Byte → Byte → Instr) :
    List Byte → Except DecodeError Instr
  | [b0, b1, b2, b3] => .ok (f b0 b1 b2 b3)
  | _ => .error (.badLength op)

/-- Format T, `[op, n, s_0, ..., s_(n-1)]`: the count byte, unsigned, and exactly that many bytes (R76). -/
def decodeT (op : Byte) (f : List Byte → Instr) : List Byte → Except DecodeError Instr
  | n :: text => if text.length = n.toNat then .ok (f text) else .error (.badLength op)
  | [] => .error (.badLength op)

/-- The command a byte string presents (R76, R77), or why it is none (R78). -/
def decode : List Byte → Except DecodeError Instr
  | [] => .error .emptyString
  | op :: args =>
    match op.toNat with
    | 0x10 => decodeZ op .crcInit args
    | 0x11 => decodeB op .crcUpd args
    | 0x12 => decodeZ op .crcFin args
    | 0x20 => decodeQ op .tagLdb args
    | 0x21 => decodeT op .tagLdt args
    | 0x22 => decodeZ op .tagRdt args
    | 0x23 => decodeQ op .tagCmp args
    | 0x24 => decodeZ op .tagCrit args
    | 0x25 => decodeZ op .tagPub args
    | 0x26 => decodeZ op .tagRsv args
    | 0x27 => decodeZ op .tagSafe args
    | 0x30 => decodeZ op .chNew args
    | 0x31 => decodeZ op .chParse args
    | 0x32 => decodeZ op .chSer args
    | 0x33 => decodeZ op .chTxt args
    | 0x40 => decodeZ op .ctNew args
    | 0x41 => decodeZ op .ctParse args
    | 0x42 => decodeZ op .ctSer args
    | 0x43 => decodeZ op .ctApp args
    | 0x44 => decodeT op .ctFind args
    | 0x45 => decodeT op .ctRem args
    | _ => .error (.reservedOpcode op)

/-- The opcode byte of a command (R77). -/
def opcode : Instr → Byte
  | .crcInit => 0x10#8
  | .crcUpd _ => 0x11#8
  | .crcFin => 0x12#8
  | .tagLdb _ _ _ _ => 0x20#8
  | .tagLdt _ => 0x21#8
  | .tagRdt => 0x22#8
  | .tagCmp _ _ _ _ => 0x23#8
  | .tagCrit => 0x24#8
  | .tagPub => 0x25#8
  | .tagRsv => 0x26#8
  | .tagSafe => 0x27#8
  | .chNew => 0x30#8
  | .chParse => 0x31#8
  | .chSer => 0x32#8
  | .chTxt => 0x33#8
  | .ctNew => 0x40#8
  | .ctParse => 0x41#8
  | .ctSer => 0x42#8
  | .ctApp => 0x43#8
  | .ctFind _ => 0x44#8
  | .ctRem _ => 0x45#8

/-- A text operand as its count byte and its bytes (R76). A text of more than 255 bytes is not
well-formed, and its count byte here is no length of it. -/
def encodeText (text : List Byte) : List Byte := BitVec.ofNat 8 text.length :: text

/-- The operand bytes of a command (R76). -/
def operandBytes : Instr → List Byte
  | .crcUpd d => [d]
  | .tagLdb b0 b1 b2 b3 => [b0, b1, b2, b3]
  | .tagCmp b0 b1 b2 b3 => [b0, b1, b2, b3]
  | .tagLdt text => encodeText text
  | .ctFind key => encodeText key
  | .ctRem key => encodeText key
  | .crcInit | .crcFin | .tagRdt | .tagCrit | .tagPub | .tagRsv | .tagSafe => []
  | .chNew | .chParse | .chSer | .chTxt | .ctNew | .ctParse | .ctSer | .ctApp => []

/-- The command string of a command: its opcode byte, then its operand bytes (R76). -/
def encode (i : Instr) : List Byte := opcode i :: operandBytes i

/-- How many bytes a command string of this opcode has, `n` being its second byte (R76); 1 for a
reserved opcode, which is a string that the decoder refuses. -/
def commandLength (op n : Byte) : Nat :=
  match op.toNat with
  | 0x11 => 2
  | 0x20 => 5
  | 0x23 => 5
  | 0x21 => 2 + n.toNat
  | 0x44 => 2 + n.toNat
  | 0x45 => 2 + n.toNat
  | _ => 1

/-- Byte `k` of a command whose bits are `w`, bit 0 the least significant bit of the first byte. -/
def byteOfBits (w k : Nat) : Byte := BitVec.ofNat 8 (w >>> (8 * k))

/-- The command string whose first `nbits` bits are those of `w`, the first byte lowest, and whose
remaining bytes, up to the length its format asks for, are 0 (log entry 19). -/
def bytesOfTableWord (nbits w : Nat) : List Byte :=
  let v := w % 2 ^ nbits
  let size := max (nbits / 8) (commandLength (byteOfBits v 0) (byteOfBits v 1))
  (List.range size).map (byteOfBits v)

/-- What the decoder reads from a command given as a number, in the numbering of the opcode table
(log entry 19). -/
def decodeTableWord (nbits w : Nat) : Option Instr :=
  match decode (bytesOfTableWord nbits w) with
  | .ok i => some i
  | .error _ => none

end Sys2Proof
end

