-- ==== Sys2Proof/Config.lean ====
section
/-! DEFINITION. What is fixed for the life of the block (R6, R37): the checksum constants, the payload
bound, and the parameters the spec leaves OPEN. An open parameter has no body, so that every claim holds
for every value of it. The capacities `CAP_*` are unbounded in the model (R6, D22; log entry 7). -/

namespace Sys2Proof.Config

/-- `CRC_POLY`, the reflected polynomial (R6, R100). -/
def CRC_POLY : Word := 0xEDB88320#32

/-- `CRC_INIT`, the start value of the checksum register (R6, R100). -/
def CRC_INIT : Word := 0xFFFFFFFF#32

/-- `CRC_XOROUT`, the final xor (R6, R100). -/
def CRC_XOROUT : Word := 0xFFFFFFFF#32

/-- `MAX_PAYLOAD`, the longest payload of a chunk in bytes (R6). -/
def MAX_PAYLOAD : Nat := 4294967295

/-- `SIG`, OPEN (R6, D10; log entry 4): the signature as one big-endian number of 64 bits (R70).
DESIGN CHOICE: no value is chosen, the spec's default included; safe. -/
opaque SIG : BitVec 64

/-- The default of `SIG` that the spec's vectors use (R6). No definition of the model reads it. -/
def SIG_DEFAULT : BitVec 64 := 0x89504E470D0A1A0A#64

/-- `TAG_CHECK_ON_PARSE`, OPEN (R6, D11; log entry 5): whether the deframer rejects a tag that is not
four letters (R139). DESIGN CHOICE: no value is chosen; safe. -/
opaque TAG_CHECK_ON_PARSE : Bool

/-- `LossyText`, implementation-defined (R128, U3; log entry 6): the text of a tag that has a byte of
`0x80` or above. DESIGN CHOICE: a free function of the tag; safe. -/
opaque lossyText : Word → List Byte

end Sys2Proof.Config
end

