-- ==== Sys2Proof/Machine/State.lean ====
section
/-! DEFINITION. The whole state of the block (R20) as plain data, the two fields of the model's own
(`inputs`, `delivered`), the reasons a step stops, and the state after reset (R36). -/

namespace Sys2Proof.Machine

/-- A chunk value (R135): tag, payload, checksum. Its length is derived, not stored. -/
structure Chunk where
  tag : Word
  pay : List Byte
  crc : Word
  deriving DecidableEq, Repr

/-- `W`, the working chunk register (R22): `W.V`, `W.TAG`, `W.PAY`, `W.CRC`. -/
structure WorkReg where
  v : Bool
  tag : Word
  pay : List Byte
  crc : Word
  deriving DecidableEq, Repr

/-- `FL`, the flag register (R28): bits 0 to 3 are `P`, `EQ`, `LT`, `HIT`. -/
structure Flags where
  p : Bool
  eq : Bool
  lt : Bool
  hit : Bool
  deriving DecidableEq, Repr

/-- The six failure kinds (R185). -/
inductive FailKind where
  | truncatedInput
  | signatureMismatch
  | checksumMismatch
  | formatError
  | encodingError
  | notFound
  deriving DecidableEq, Repr

/-- The memory spaces (R33). -/
inductive Space where
  | ibuf
  | pbuf
  | obuf
  | wPay
  /-- `CSEQ[i].pay`. -/
  | cseqPay (i : Nat)
  deriving DecidableEq, Repr

/-- What `HOST.READ x` may name (R79): every register, flag, derived value and piece of a space (R35). -/
inductive ReadTarget where
  | tag
  | wV
  | wTag
  | wLen
  | wCrc
  | crcr
  | crco
  | cur
  | idx
  /-- The whole of `FL` as a 4-bit number. -/
  | fl
  | flP
  | flEq
  | flLt
  | flHit
  | status
  | eoff
  | etag
  | eval
  | ilen
  | plen
  | olen
  /-- `N`, the number of chunks in the container. -/
  | n
  | cseqTag (i : Nat)
  | cseqLen (i : Nat)
  | cseqCrc (i : Nat)
  /-- `S[a..b)`. -/
  | bytes (space : Space) (a b : Nat)
  deriving DecidableEq, Repr

/-- What a host read returns: a number (R51, registers are numbers, not bytes) or bytes of a space. -/
inductive ReadValue where
  | number (v : Nat)
  | bytes (bs : List Byte)
  deriving DecidableEq, Repr

/-- The host accesses (R79, R35): two whole-space loads, the cursor write, and reads. -/
inductive HostAccess where
  | loadIbuf (bs : List Byte)
  | loadPbuf (bs : List Byte)
  /-- `HOST.SETCUR v`; the written value has 64 bits (R27). -/
  | setCur (v : BitVec 64)
  | read (x : ReadTarget)
  deriving DecidableEq, Repr

/-- One thing the outside does to the block (R5, R210; log entry 1). The last two are the situations
of R214 and U8 that have no meaning (log entry 11). -/
inductive Input where
  /-- The host presents a command string (R76). -/
  | command (bytes : List Byte)
  /-- The host acts between two commands (R5). -/
  | access (a : HostAccess)
  /-- Reset, between two commands (R210). -/
  | reset
  /-- A host access, a second command or a reset while the command `bytes` executes (R214, R210). -/
  | duringCommand (bytes : List Byte)
  /-- An access by a second host (R214). -/
  | secondHost (a : HostAccess)
  deriving DecidableEq, Repr

/-- The machine's faults: none. No behaviour of the block is stuck, and its failures are results from
which it goes on (R190, R192; log entry 10). -/
inductive Fault
  deriving DecidableEq, Repr

/-- Why a step has no meaning (R200). Every one is safe: nothing is claimed of a run that contains it. -/
inductive Refusal where
  /-- Raised by an arm of `exec` whose instruction has no meaning yet. Safe. -/
  | notModelled (mnemonic : String)
  /-- Raised on a command string with a reserved opcode (R78, U5). Safe. -/
  | reservedOpcode (op : Byte)
  /-- Raised on a command string whose length fits no format of its opcode (R78, U5). Safe. -/
  | malformedCommand (bytes : List Byte)
  /-- Raised by `CH.SER`, `CH.TXT` and `CT.APP` while `W.V = 0` (R149, U6). Safe. -/
  | noChunk
  /-- Raised by a host read of `CSEQ[i]` with `i >= N` or outside a space (R166, R50, U7). Safe. -/
  | readOutOfRange (x : ReadTarget)
  /-- Raised by an access, a second command or a reset during a command (R214, R210, U8). Safe. -/
  | accessDuringCommand
  /-- Raised by an access of a second host (R214, U8). Safe. -/
  | secondHost
  deriving DecidableEq, Repr

/-- The whole state of the block (R20), and the model's own `inputs` and `delivered`. -/
structure State where
  /-- `TAG` (R21). -/
  tag : Word
  /-- `W` (R22). -/
  w : WorkReg
  /-- `CRCR` (R24). -/
  crcr : Word
  /-- `CRCO` (R25). -/
  crco : Word
  /-- `CUR` (R27), a natural (R6; log entry 3). -/
  cur : Nat
  /-- `IDX` (R26), a natural (R6; log entry 3). -/
  idx : Nat
  /-- `FL` (R28). -/
  fl : Flags
  /-- `STATUS` (R29). -/
  status : BitVec 8
  /-- `EOFF` (R29), a natural (R6; log entry 3). -/
  eoff : Nat
  /-- `ETAG` (R29). -/
  etag : Word
  /-- `EVAL` (R29): bit 0 for `EOFF`, bit 1 for `ETAG`. -/
  eval : BitVec 2
  /-- `IBUF` (R33). -/
  ibuf : List Byte
  /-- `PBUF` (R33). -/
  pbuf : List Byte
  /-- `OBUF` (R33). -/
  obuf : List Byte
  /-- `CSEQ` (R31). -/
  cseq : List Chunk
  /-- The model's own: what the outside does next, head first (log entry 1). -/
  inputs : List Input
  /-- The model's own: the values the host's reads returned, oldest first (log entry 2). -/
  delivered : List ReadValue
  deriving DecidableEq, Repr

/-- `W` after reset: no chunk (R22, R36). -/
def WorkReg.reset : WorkReg := { v := false, tag := 0, pay := [], crc := 0 }

/-- `FL` after reset (R28, R36). -/
def Flags.reset : Flags := { p := false, eq := false, lt := false, hit := false }

/-- The state after reset (R36, R210). The last two fields are the model's own (log entries 1, 2). -/
def State.reset : State :=
  { tag := 0, w := WorkReg.reset, crcr := 0xFFFFFFFF#32, crco := 0, cur := 0, idx := 0,
    fl := Flags.reset, status := 0, eoff := 0, etag := 0, eval := 0,
    ibuf := [], pbuf := [], obuf := [], cseq := [], inputs := [], delivered := [] }

end Sys2Proof.Machine
end

