-- ==== Sys2Proof/Machine/Ops.lean ====
section
/-! DEFINITION. The shared operations: big-endian fields, reads of a space, the parameters as the
meanings read them, and how a command ends (completion, failure, refusal). -/

namespace Sys2Proof.Machine

/-! ### Byte sequences and 32-bit fields (R8, R51) -/

/-- `be32(v)`: most significant byte first (R8). -/
def be32 (v : Word) : List Byte :=
  [v.extractLsb' 24 8, v.extractLsb' 16 8, v.extractLsb' 8 8, v.extractLsb' 0 8]

/-- The 32-bit number of four bytes, the first the most significant (R8). -/
def word32 (b0 b1 b2 b3 : Byte) : Word :=
  (b0.setWidth 32 <<< 24) ||| (b1.setWidth 32 <<< 16) ||| (b2.setWidth 32 <<< 8) ||| b3.setWidth 32

/-- `rd32(s, i)` (R8). It is defined only when `i + 4 <= |s|`: every caller tests that bound first, so
the 0 that stands for a missing byte is never part of a result (log entry 15). -/
def rd32 (s : List Byte) (i : Nat) : Word :=
  word32 (s.getD i 0) (s.getD (i + 1) 0) (s.getD (i + 2) 0) (s.getD (i + 3) 0)

/-- `s[i..j)` (R8). -/
def slice (s : List Byte) (i j : Nat) : List Byte := (s.drop i).take (j - i)

/-- `MemRead(S, a, n)`: defined only when `a + n <= |S|` (R50). -/
def memRead (s : List Byte) (a n : Nat) : Option (List Byte) :=
  if a + n ≤ s.length then some (slice s a (a + n)) else none

/-- The content of a space (R33); an entry of `CSEQ` that does not exist has none (R31). -/
def spaceBytes (s : State) : Space → Option (List Byte)
  | .ibuf => some s.ibuf
  | .pbuf => some s.pbuf
  | .obuf => some s.obuf
  | .wPay => some s.w.pay
  | .cseqPay i => (s.cseq[i]?).map Chunk.pay

/-- A space as a list of (address, byte) pairs, from address `a` on (R32; log entry 9). -/
def cellsFrom (a : Nat) : List Byte → List Host.Cell
  | [] => []
  | b :: bs => (a, b) :: cellsFrom (a + 1) bs

/-- A space as a list of (address, byte) pairs (R32; log entry 9). -/
def cells (space : List Byte) : List Host.Cell := cellsFrom 0 space

/-- The canonical form of a space as pairs: addresses count up by one from `a` (R32; log entry 9). An
address that is not listed does not exist, so no entry can repeat what an unlisted one reads as. -/
def Memory.wfFrom (a : Nat) : List Host.Cell → Bool
  | [] => true
  | (k, _) :: rest => k == a && Memory.wfFrom (a + 1) rest

/-- The canonical form of a space as pairs (log entry 9). -/
def Memory.wf (m : List Host.Cell) : Bool := Memory.wfFrom 0 m

/-! ### The open parameters, as the meanings read them (R6) -/

/-- The eight bytes of a signature given as one big-endian number (R70). -/
def sigBytesOf (sig : BitVec 64) : List Byte :=
  be32 (sig.extractLsb' 32 32) ++ be32 (sig.extractLsb' 0 32)

/-- `SIG`, the eight signature bytes (R6, R155). -/
def sigBytes : List Byte := sigBytesOf Config.SIG

/-- `TAG_CHECK_ON_PARSE` (R6, R139). -/
def tagCheckOnParse : Bool := Config.TAG_CHECK_ON_PARSE

/-- `LossyText` (R128, U3). -/
def lossyText (t : Word) : List Byte := Config.lossyText t

/-! ### Chunk values and `W` (R22, R135) -/

/-- `W` holding a chunk (R22). -/
def WorkReg.ofChunk (c : Chunk) : WorkReg := { v := true, tag := c.tag, pay := c.pay, crc := c.crc }

/-- The chunk that `W` holds, when `W.V = 1` (R22). -/
def WorkReg.chunk (w : WorkReg) : Chunk := { tag := w.tag, pay := w.pay, crc := w.crc }

/-! ### How a command ends (R189, R190, R200) -/

/-- The `STATUS` code of a failure kind (R185). -/
def FailKind.code : FailKind → BitVec 8
  | .truncatedInput => 1
  | .signatureMismatch => 2
  | .checksumMismatch => 3
  | .formatError => 4
  | .encodingError => 5
  | .notFound => 6

/-- `EVAL`: bit 0 says that `EOFF` holds an offset, bit 1 that `ETAG` holds a tag (R29). -/
def evalBits (hasOff hasTag : Bool) : BitVec 2 :=
  match hasTag, hasOff with
  | false, false => 0
  | false, true => 1
  | true, false => 2
  | true, true => 3

/-- The state with success in the four status registers (R189). -/
def State.succeeded (s : State) : State := { s with status := 0, eval := 0, eoff := 0, etag := 0 }

/-- The state with a failure in the four status registers, everything else as it was (R190); a field
whose `EVAL` bit is 0 is written with 0 (R187). -/
def State.failed (k : FailKind) (off : Option Nat) (tag : Option Word) (s : State) : State :=
  { s with
    status := k.code
    eval := evalBits off.isSome tag.isSome
    eoff := off.getD 0
    etag := tag.getD 0 }

/-- A command that reaches its end: `STATUS`, `EVAL`, `EOFF`, `ETAG` become 0 after its other writes
(R189). -/
def done (s : State) : Host.Outcome State Fault Refusal := .next s.succeeded

/-- Taking an exception, `raise K(info)` (R190), from the state `s` before the command: the block's one
trap entry. It saves nothing, changes no mode and goes nowhere (R190). The return from it is nothing:
the next command starts from this state and overwrites the four status registers (R193). -/
def raise (k : FailKind) (off : Option Nat) (tag : Option Word) (s : State) :
    Host.Outcome State Fault Refusal :=
  .next (s.failed k off tag)

/-- `refuse`: no meaning, and nothing is written, not even `STATUS` (R9, R200). -/
def refuse (r : Refusal) : Host.Outcome State Fault Refusal := .refused r

end Sys2Proof.Machine
end

