-- ==== Sys2Proof/Machine/Flags.lean ====
section
/-! DEFINITION. What the flags are computed from (R116 to R118) and how each is written (R28). -/

namespace Sys2Proof.Machine

/-- `IsLetter(b)`: `A` to `Z` or `a` to `z` (R116). -/
def isLetter (b : Byte) : Bool :=
  (0x41 ≤ b.toNat && b.toNat ≤ 0x5A) || (0x61 ≤ b.toNat && b.toNat ≤ 0x7A)

/-- `TagValid(t)`: all four bytes are letters (R116). -/
def tagValid (t : Word) : Bool := (be32 t).all isLetter

/-- `Critical(t)`: bit 5 of tag byte 0 is 0, register bit 29 (R117). -/
def critical (t : Word) : Bool := !t.getLsbD 29

/-- `Public(t)`: bit 5 of tag byte 1 is 0, register bit 21 (R117). -/
def isPublic (t : Word) : Bool := !t.getLsbD 21

/-- `ReservedValid(t)`: bit 5 of tag byte 2 is 0, register bit 13 (R117). -/
def reservedValid (t : Word) : Bool := !t.getLsbD 13

/-- `SafeToCopy(t)`: bit 5 of tag byte 3 is 1, register bit 5, not inverted (R117, C1). -/
def safeToCopy (t : Word) : Bool := t.getLsbD 5

/-- `TagEq(a, b)` (R118). -/
def tagEq (a b : Word) : Bool := a == b

/-- `TagLt(a, b)`: the two register images compared as unsigned numbers (R118). -/
def tagLt (a b : Word) : Bool := a.toNat < b.toNat

/-- `FL.P <- v`, the other flags unchanged (R28). -/
def State.writeP (v : Bool) (s : State) : State := { s with fl := { s.fl with p := v } }

/-- `FL.EQ` and `FL.LT` from comparing the tag `a` with the operand `k`; `P`, `HIT` unchanged (R123). -/
def State.writeCmp (a k : Word) (s : State) : State :=
  { s with fl := { s.fl with eq := tagEq a k, lt := tagLt a k } }

/-- `FL.HIT <- v`, the other flags unchanged (R164). -/
def State.writeHit (v : Bool) (s : State) : State := { s with fl := { s.fl with hit := v } }

/-- `FL` as a 4-bit number: bits 0 to 3 are `P`, `EQ`, `LT`, `HIT` (R28). -/
def Flags.bits (f : Flags) : BitVec 4 :=
  BitVec.ofBool f.hit ++ BitVec.ofBool f.lt ++ BitVec.ofBool f.eq ++ BitVec.ofBool f.p

end Sys2Proof.Machine
end

