-- ==== Sys2Proof/Machine/Access.lean ====
section
/-! DEFINITION. The host accesses (R35, R79): loads, the cursor write, and reads. -/

namespace Sys2Proof.Machine

/-- What `HOST.READ x` returns, or none when `x` lies outside `CSEQ` or outside its space (R35, R144,
R166, R50; log entry 14). -/
def readTarget (s : State) : ReadTarget → Option ReadValue
  | .tag => some (.number s.tag.toNat)
  | .wV => some (.number s.w.v.toNat)
  | .wTag => some (.number s.w.tag.toNat)
  | .wLen => some (.number s.w.pay.length)
  | .wCrc => some (.number s.w.crc.toNat)
  | .crcr => some (.number s.crcr.toNat)
  | .crco => some (.number s.crco.toNat)
  | .cur => some (.number s.cur)
  | .idx => some (.number s.idx)
  | .fl => some (.number s.fl.bits.toNat)
  | .flP => some (.number s.fl.p.toNat)
  | .flEq => some (.number s.fl.eq.toNat)
  | .flLt => some (.number s.fl.lt.toNat)
  | .flHit => some (.number s.fl.hit.toNat)
  | .status => some (.number s.status.toNat)
  | .eoff => some (.number s.eoff)
  | .etag => some (.number s.etag.toNat)
  | .eval => some (.number s.eval.toNat)
  | .ilen => some (.number s.ibuf.length)
  | .plen => some (.number s.pbuf.length)
  | .olen => some (.number s.obuf.length)
  | .n => some (.number s.cseq.length)
  | .cseqTag i => (s.cseq[i]?).map fun c => .number c.tag.toNat
  | .cseqLen i => (s.cseq[i]?).map fun c => .number c.pay.length
  | .cseqCrc i => (s.cseq[i]?).map fun c => .number c.crc.toNat
  | .bytes space a b =>
    match spaceBytes s space with
    | some content => if a ≤ b then (memRead content a (b - a)).map .bytes else none
    | none => none

/-- `HOST.LOAD IBUF, bs`: the whole space is replaced (R33, R55). -/
def hostLoadIbuf (bs : List Byte) (s : State) : Host.Outcome State Fault Refusal :=
  .next { s with ibuf := bs }

/-- `HOST.LOAD PBUF, bs`: the whole space is replaced (R33, R55). -/
def hostLoadPbuf (bs : List Byte) (s : State) : Host.Outcome State Fault Refusal :=
  .next { s with pbuf := bs }

/-- `HOST.SETCUR v`: any value (R27). -/
def hostSetCur (v : BitVec 64) (s : State) : Host.Outcome State Fault Refusal :=
  .next { s with cur := v.toNat }

/-- `HOST.READ x`: nothing of the block changes (R55); the value goes to the host (log entry 2). -/
def hostRead (x : ReadTarget) (s : State) : Host.Outcome State Fault Refusal :=
  match readTarget s x with
  | some v => .next { s with delivered := s.delivered ++ [v] }
  | none => refuse (.readOutOfRange x)

/-- One host access (R5, R35). It writes no status register: only commands do (R29). -/
def hostAccess (a : HostAccess) (s : State) : Host.Outcome State Fault Refusal :=
  match a with
  | .loadIbuf bs => hostLoadIbuf bs s
  | .loadPbuf bs => hostLoadPbuf bs s
  | .setCur v => hostSetCur v s
  | .read x => hostRead x s

end Sys2Proof.Machine
end

