-- ==== Sys2Proof/Machine/Crc.lean ====
section
/-! DEFINITION. The CRC-32/PNG generator: its functions (R101 to R103) and its three commands (R104 to
R106). -/

namespace Sys2Proof.Machine

/-- `CrcBit(c, d)` (R101). -/
def crcBit (c : Word) (d : Bool) : Word :=
  if (c.getLsbD 0 ^^ d) then (c >>> 1) ^^^ Config.CRC_POLY else c >>> 1

/-- `CrcByte(c, b)`: bit 0 of the byte first (R101, R52). -/
def crcByte (c : Word) (b : Byte) : Word :=
  (List.range 8).foldl (fun c i => crcBit c (b.getLsbD i)) c

/-- `CrcTable[n]`, a constant of the block, not state (R102, R34). -/
def crcTable (n : Byte) : Word := crcByte (n.setWidth 32) 0

/-- The checksum register after the bytes of `s`, from `c` (R103). -/
def crcRun (c : Word) (s : List Byte) : Word := s.foldl crcByte c

/-- `Crc32(s)` (R103). -/
def crc32 (s : List Byte) : Word := crcRun Config.CRC_INIT s ^^^ Config.CRC_XOROUT

/-- `CRC.INIT` (R104). -/
def execCrcInit (s : State) : Host.Outcome State Fault Refusal :=
  done { s with crcr := Config.CRC_INIT }

/-- `CRC.UPD d` (R105). -/
def execCrcUpd (d : Byte) (s : State) : Host.Outcome State Fault Refusal :=
  done { s with crcr := crcByte s.crcr d }

/-- `CRC.FIN` (R106): `CRCR` is unchanged. -/
def execCrcFin (s : State) : Host.Outcome State Fault Refusal :=
  done { s with crco := s.crcr ^^^ Config.CRC_XOROUT }

end Sys2Proof.Machine
end

