-- ==== Sys2Proof/Machine/Operands.lean ====
section
/-! DEFINITION. Operand forms (R76, R57): the tag of a format Q operand, the text of a format T operand
read as a tag, the key match, and the part of `IBUF` a cursor names. -/

namespace Sys2Proof.Machine

/-- A format Q operand as a tag: `b0` in bits 31:24 (R76, R21). -/
def tagOperand (b0 b1 b2 b3 : Byte) : Word := word32 b0 b1 b2 b3

/-- A format T operand as a tag, when it has 4 bytes (R120, R165). -/
def textTag (text : List Byte) : Option Word :=
  if text.length = 4 then some (rd32 text 0) else none

/-- `TagBytes(t) = be32(t)` (R115). -/
def tagBytes (t : Word) : List Byte := be32 t

/-- `Match(c, s)`: the key has 4 bytes and they are the tag's (R158). -/
def keyMatches (c : Chunk) (key : List Byte) : Bool := key == tagBytes c.tag

/-- `IBUF[CUR .. ILEN)`, empty when `CUR > ILEN` (R141). -/
def fromCursor (s : State) : List Byte :=
  if s.cur ≤ s.ibuf.length then slice s.ibuf s.cur s.ibuf.length else []

end Sys2Proof.Machine
end

