-- ==== Sys2Proof/Machine/Chunk.lean ====
section
/-! DEFINITION. The chunk unit: framer and deframer (R136 to R139), the text test (R145), and the
commands `CH.NEW`, `CH.PARSE`, `CH.SER`, `CH.TXT` (R140 to R143). -/

namespace Sys2Proof.Machine

/-- `FrameLen(c) = 12 + |c.pay|`, a natural, never reduced modulo `2^32` (R136). -/
def frameLen (c : Chunk) : Nat := 12 + c.pay.length

/-- `ChunkSer(c)`: length, tag, payload, stored crc (R137). -/
def chunkSer (c : Chunk) : List Byte :=
  be32 (BitVec.ofNat 32 c.pay.length) ++ tagBytes c.tag ++ c.pay ++ be32 c.crc

/-- The checksum of a tag and a payload, `Crc32(TagBytes(t) ++ p)` (R135, R138). -/
def chunkCrc (t : Word) (p : List Byte) : Word := crc32 (tagBytes t ++ p)

/-- `ChunkNew(t, p)` (R138). -/
def chunkNew (t : Word) (p : List Byte) : Except FailKind Chunk :=
  if p.length > Config.MAX_PAYLOAD then .error .formatError
  else .ok { tag := t, pay := p, crc := chunkCrc t p }

/-- `fail(kind, tag)` of the deframer (R139): the tag is there when its 4 bytes could be read. -/
structure FrameFail where
  kind : FailKind
  tag : Option Word
  deriving DecidableEq, Repr

/-- `ChunkParse(buf)` with the parameter `TAG_CHECK_ON_PARSE` as `check` (R139): one chunk from the front
of `buf` and the number of bytes it occupied. The tests stand in the order of R191. -/
def chunkParse (check : Bool) (buf : List Byte) : Except FrameFail (Chunk × Nat) :=
  let r := buf.length
  if r < 8 then .error { kind := .truncatedInput, tag := none }
  else
    let len := (rd32 buf 0).toNat
    let t := rd32 buf 4
    if r < 12 + len then .error { kind := .truncatedInput, tag := some t }
    else
      let p := slice buf 8 (8 + len)
      let k := rd32 buf (8 + len)
      if chunkCrc t p ≠ k then .error { kind := .checksumMismatch, tag := some t }
      else if !tagValid t && check then .error { kind := .formatError, tag := some t }
      else .ok ({ tag := t, pay := p, crc := k }, 12 + len)

/-- What must follow the first byte of a UTF-8 character, as ranges of bytes, or none when no character
starts with it: the rows of the table of R145. -/
def utf8Follow (b : Byte) : Option (List (Nat × Nat)) :=
  let n := b.toNat
  if n ≤ 0x7F then some []
  else if n < 0xC2 then none
  else if n ≤ 0xDF then some [(0x80, 0xBF)]
  else if n = 0xE0 then some [(0xA0, 0xBF), (0x80, 0xBF)]
  else if n ≤ 0xEC then some [(0x80, 0xBF), (0x80, 0xBF)]
  else if n = 0xED then some [(0x80, 0x9F), (0x80, 0xBF)]
  else if n ≤ 0xEF then some [(0x80, 0xBF), (0x80, 0xBF)]
  else if n = 0xF0 then some [(0x90, 0xBF), (0x80, 0xBF), (0x80, 0xBF)]
  else if n ≤ 0xF3 then some [(0x80, 0xBF), (0x80, 0xBF), (0x80, 0xBF)]
  else if n = 0xF4 then some [(0x80, 0x8F), (0x80, 0xBF), (0x80, 0xBF)]
  else none

/-- The text test in the middle of a character: `pending` are the ranges its next bytes must lie in. -/
def utf8Run (pending : List (Nat × Nat)) : List Byte → Bool
  | [] => pending.isEmpty
  | b :: rest =>
    match pending with
    | (lo, hi) :: more => lo ≤ b.toNat && b.toNat ≤ hi && utf8Run more rest
    | [] =>
      match utf8Follow b with
      | some more => utf8Run more rest
      | none => false

/-- `Utf8Valid(s)` (R145). -/
def utf8Valid (s : List Byte) : Bool := utf8Run [] s

/-- `CH.NEW` (R140): the failure names `TAG` (R187). -/
def execChNew (s : State) : Host.Outcome State Fault Refusal :=
  match chunkNew s.tag s.pbuf with
  | .error k => raise k none (some s.tag) s
  | .ok c => done { s with w := WorkReg.ofChunk c }

/-- `CH.PARSE` (R141): the failure names `CUR` and, when it was read, the frame's tag (R187). -/
def execChParse (s : State) : Host.Outcome State Fault Refusal :=
  match chunkParse tagCheckOnParse (fromCursor s) with
  | .error f => raise f.kind (some s.cur) f.tag s
  | .ok (c, size) => done { s with w := WorkReg.ofChunk c, cur := s.cur + size }

/-- `CH.SER` (R142), refused while `W.V = 0` (R149). -/
def execChSer (s : State) : Host.Outcome State Fault Refusal :=
  if s.w.v then done { s with obuf := chunkSer s.w.chunk } else refuse .noChunk

/-- `CH.TXT` (R143), refused while `W.V = 0` (R149); the failure names `W.TAG` (R187). -/
def execChTxt (s : State) : Host.Outcome State Fault Refusal :=
  if s.w.v then
    if utf8Valid s.w.pay then done { s with obuf := s.w.pay }
    else raise .encodingError none (some s.w.tag) s
  else refuse .noChunk

end Sys2Proof.Machine
end

