-- ==== Sys2Proof/Machine/Container.lean ====
section
/-! DEFINITION. The container unit: stream serialize and parse (R156, R157), first match (R159), and the
commands `CT.NEW` to `CT.REM` (R160 to R165). -/

namespace Sys2Proof.Machine

/-- `ContSer(q)`: the signature, then every chunk's frame in index order (R156). -/
def contSer (sig : List Byte) (q : List Chunk) : List Byte := sig ++ (q.map chunkSer).flatten

/-- `fail(kind, offset, tag)` of the container deframer (R157). -/
structure StreamFail where
  kind : FailKind
  offset : Nat
  tag : Option Word
  deriving DecidableEq, Repr

/-- The loop of `ContParse` (R157) from the offset `cur`, `rest` being the bytes from there on, with at
most `fuel` frames still to parse. Every frame takes at least 12 bytes, so that `|rest|` is enough fuel
and the last line is never reached with bytes left (R157 (e); log entry 16). -/
def contFrames (check : Bool) : Nat → Nat → List Byte → Except StreamFail (List Chunk)
  | fuel + 1, cur, rest =>
    if rest.isEmpty then .ok []
    else
      match chunkParse check rest with
      | .error f => .error { kind := f.kind, offset := cur, tag := f.tag }
      | .ok (c, size) =>
        match contFrames check fuel (cur + size) (rest.drop size) with
        | .error e => .error e
        | .ok q => .ok (c :: q)
  | 0, _, _ => .ok []

/-- `ContParse(buf)` with the parameters `SIG` as `sig` and `TAG_CHECK_ON_PARSE` as `check` (R157). -/
def contParse (sig : List Byte) (check : Bool) (buf : List Byte) : Except StreamFail (List Chunk) :=
  if buf.length < 8 then .error { kind := .truncatedInput, offset := 0, tag := none }
  else if buf.take 8 ≠ sig then .error { kind := .signatureMismatch, offset := 0, tag := none }
  else contFrames check (buf.drop 8).length 8 (buf.drop 8)

/-- `Find(q, s)` with the chunk it finds: the least index whose chunk matches the key (R159). -/
def findFirst : List Chunk → List Byte → Option (Nat × Chunk)
  | [], _ => none
  | c :: rest, key =>
    if keyMatches c key then some (0, c)
    else
      match findFirst rest key with
      | some (i, d) => some (i + 1, d)
      | none => none

/-- `CSEQ[0 .. i) ++ CSEQ[i+1 .. N)` (R165). -/
def removeAt (q : List Chunk) (i : Nat) : List Chunk := q.take i ++ q.drop (i + 1)

/-- `CT.NEW` (R160). -/
def execCtNew (s : State) : Host.Outcome State Fault Refusal := done { s with cseq := [] }

/-- `CT.PARSE` (R161): the failure names the offset of the item that failed and, when it was read, the
frame's tag (R187). -/
def execCtParse (s : State) : Host.Outcome State Fault Refusal :=
  match contParse sigBytes tagCheckOnParse s.ibuf with
  | .error f => raise f.kind (some f.offset) f.tag s
  | .ok q => done { s with cseq := q, cur := s.ibuf.length }

/-- `CT.SER` (R162). -/
def execCtSer (s : State) : Host.Outcome State Fault Refusal :=
  done { s with obuf := contSer sigBytes s.cseq }

/-- `CT.APP` (R163), refused while `W.V = 0` (R149). -/
def execCtApp (s : State) : Host.Outcome State Fault Refusal :=
  if s.w.v then done { s with cseq := s.cseq ++ [s.w.chunk] } else refuse .noChunk

/-- `CT.FIND s` (R164): a miss is no failure. -/
def execCtFind (key : List Byte) (s : State) : Host.Outcome State Fault Refusal :=
  match findFirst s.cseq key with
  | none => done (s.writeHit false)
  | some (i, c) => done { s.writeHit true with idx := i, w := WorkReg.ofChunk c }

/-- `CT.REM s` (R165): NotFound names the key when it has 4 bytes (R187). -/
def execCtRem (key : List Byte) (s : State) : Host.Outcome State Fault Refusal :=
  match findFirst s.cseq key with
  | none => raise .notFound none (textTag key) s
  | some (i, c) => done { s with w := WorkReg.ofChunk c, idx := i, cseq := removeAt s.cseq i }

end Sys2Proof.Machine
end

