-- ==== Sys2Proof/Machine/Tag.lean ====
section
/-! DEFINITION. The tag unit: the text of a tag (R128) and its eight commands (R119 to R127). -/

namespace Sys2Proof.Machine

/-- `TagText(t)`: the 4 tag bytes when all are below `0x80`, else implementation-defined (R128, U3). -/
def tagText (t : Word) : List Byte :=
  if (tagBytes t).all (fun b => b.toNat < 0x80) then tagBytes t else lossyText t

/-- `TAG.LDB b0 b1 b2 b3` (R119): no validation. -/
def execTagLdb (b0 b1 b2 b3 : Byte) (s : State) : Host.Outcome State Fault Refusal :=
  done { s with tag := tagOperand b0 b1 b2 b3 }

/-- `TAG.LDT s` (R120): the length test, then the letter test, both FormatError that names nothing
(R187). -/
def execTagLdt (text : List Byte) (s : State) : Host.Outcome State Fault Refusal :=
  if text.length ≠ 4 then raise .formatError none none s
  else if !text.all isLetter then raise .formatError none none s
  else done { s with tag := rd32 text 0 }

/-- `TAG.RDT` (R122). -/
def execTagRdt (s : State) : Host.Outcome State Fault Refusal :=
  done { s with obuf := tagText s.tag }

/-- `TAG.CMP b0 b1 b2 b3` (R123). -/
def execTagCmp (b0 b1 b2 b3 : Byte) (s : State) : Host.Outcome State Fault Refusal :=
  done (s.writeCmp s.tag (tagOperand b0 b1 b2 b3))

/-- `TAG.CRIT` (R124). -/
def execTagCrit (s : State) : Host.Outcome State Fault Refusal := done (s.writeP (critical s.tag))

/-- `TAG.PUB` (R125). -/
def execTagPub (s : State) : Host.Outcome State Fault Refusal := done (s.writeP (isPublic s.tag))

/-- `TAG.RSV` (R126). -/
def execTagRsv (s : State) : Host.Outcome State Fault Refusal := done (s.writeP (reservedValid s.tag))

/-- `TAG.SAFE` (R127). -/
def execTagSafe (s : State) : Host.Outcome State Fault Refusal := done (s.writeP (safeToCopy s.tag))

end Sys2Proof.Machine
end

