-- ==== Sys2Proof/Machine/Dispatch.lean ====
section
/-! DEFINITION. One arm per command: the meaning it calls. -/

namespace Sys2Proof.Machine

def exec (i : Instr) (s : State) : Host.Outcome State Fault Refusal :=
  match i with
  | .crcInit => Sys2Proof.Machine.execCrcInit s
  | .crcUpd d => Sys2Proof.Machine.execCrcUpd d s
  | .crcFin => Sys2Proof.Machine.execCrcFin s
  | .tagLdb b0 b1 b2 b3 => Sys2Proof.Machine.execTagLdb b0 b1 b2 b3 s
  | .tagLdt text => Sys2Proof.Machine.execTagLdt text s
  | .tagRdt => Sys2Proof.Machine.execTagRdt s
  | .tagCmp b0 b1 b2 b3 => Sys2Proof.Machine.execTagCmp b0 b1 b2 b3 s
  | .tagCrit => Sys2Proof.Machine.execTagCrit s
  | .tagPub => Sys2Proof.Machine.execTagPub s
  | .tagRsv => Sys2Proof.Machine.execTagRsv s
  | .tagSafe => Sys2Proof.Machine.execTagSafe s
  | .chNew => Sys2Proof.Machine.execChNew s
  | .chParse => Sys2Proof.Machine.execChParse s
  | .chSer => Sys2Proof.Machine.execChSer s
  | .chTxt => Sys2Proof.Machine.execChTxt s
  | .ctNew => Sys2Proof.Machine.execCtNew s
  | .ctParse => Sys2Proof.Machine.execCtParse s
  | .ctSer => Sys2Proof.Machine.execCtSer s
  | .ctApp => Sys2Proof.Machine.execCtApp s
  | .ctFind key => Sys2Proof.Machine.execCtFind key s
  | .ctRem key => Sys2Proof.Machine.execCtRem key s

end Sys2Proof.Machine
end

