-- ==== Sys2Proof/Machine/Issue.lean ====
section
/-! DEFINITION. What one input does to the block (R5): a command string, a host access, a reset, or one
of the situations that have no meaning (R200). -/

namespace Sys2Proof.Machine

/-- The refusal of a byte string that is no command (R78): never a no-operation, never a `STATUS`. -/
def rejectCommand (bytes : List Byte) : DecodeError → Host.Outcome State Fault Refusal
  | .reservedOpcode op => refuse (.reservedOpcode op)
  | .emptyString => refuse (.malformedCommand bytes)
  | .badLength _ => refuse (.malformedCommand bytes)

/-- The host presents a command string: it is decoded and the command runs to its end (R76, R59). -/
def issueCommand (bytes : List Byte) (s : State) : Host.Outcome State Fault Refusal :=
  match decode bytes with
  | .ok i => exec i s
  | .error e => rejectCommand bytes e

/-- Reset (R210): every piece of the block's state takes its value of R36. What the outside still has to
do and what the host has read are not the block's and stay (log entry 13). -/
def applyReset (s : State) : Host.Outcome State Fault Refusal :=
  .next { State.reset with inputs := s.inputs, delivered := s.delivered }

/-- One input (R5, R210, R214). -/
def perform (e : Input) (s : State) : Host.Outcome State Fault Refusal :=
  match e with
  | .command bytes => issueCommand bytes s
  | .access a => hostAccess a s
  | .reset => applyReset s
  | .duringCommand _ => refuse .accessDuringCommand
  | .secondHost _ => refuse .secondHost

/-- No input is there: nothing acts and nothing changes (R5; log entry 1). -/
def idle (s : State) : Host.Outcome State Fault Refusal := .next s

/-- The state in which the host presents the command string `bytes` next (log entry 19). -/
def State.present (bytes : List Byte) (s : State) : State :=
  { s with inputs := .command bytes :: s.inputs }

end Sys2Proof.Machine
end

