-- ==== Sys2Proof/Machine/Step.lean ====
section
/-! DEFINITION. One step: the next input is taken from the queue and performed (R5). -/

namespace Sys2Proof.Machine

/-- One command of the engine, one host access or one reset (R5); idle when nothing is presented. -/
def step (s : State) : Host.Outcome State Fault Refusal :=
  match s.inputs with
  | [] => idle s
  | e :: rest => perform e { s with inputs := rest }

/-- The state in which the very next step runs the command whose bits, in the numbering of the opcode
table, are `w` (log entry 19). -/
def State.withFetchWord (s : State) (nbits w : Nat) : State := s.present (bytesOfTableWord nbits w)

end Sys2Proof.Machine
end

