-- ==== Sys2Proof/Machine/Facade.lean ====
section
/-! DEFINITION. The four use-cases as host scripts (R80, R175 to R179): fixed sequences of the inputs of
`perform`, which stop at the first command that fails. They add no state and no primitive (log entry 18). -/

namespace Sys2Proof.Machine

/-- How a host script ends (R175 (b)). -/
inductive ScriptEnd where
  /-- Every step was issued and no command failed. -/
  | ended (t : State)
  /-- A command failed: `t` is the state it left, with its failure in the status registers. -/
  | failed (t : State)
  /-- A step has no meaning (R200). -/
  | refused (r : Refusal)
  deriving DecidableEq, Repr

/-- Whether the host reads `STATUS` after this input: it does after every command (R175 (b), R212 (d)). -/
def Input.isCommand : Input → Bool
  | .command _ => true
  | .access _ => false
  | .reset => false
  | .duringCommand _ => false
  | .secondHost _ => false

/-- The steps in the order given, stopped at the first command whose `STATUS` is not 0 (R175). -/
def runScript : List Input → State → ScriptEnd
  | [], s => .ended s
  | e :: rest, s =>
    match perform e s with
    | .next t => if e.isCommand && t.status != 0 then .failed t else runScript rest t
    | .refused r => .refused r
    | .fault f => nomatch f

/-- The host presents a command of the engine (R79). -/
def issue (i : Instr) : Input := .command (encode i)

/-- What a use-case gives the host (R176 to R179), with the state it leaves in the block (R180). -/
inductive UseCase where
  /-- The bytes the host writes to the destination (R176, R178). -/
  | output (bs : List Byte) (t : State)
  /-- The extracted text (R177). -/
  | text (bs : List Byte) (t : State)
  /-- The soft result of `EXTRACT` (R177, R194): `STATUS = 0`, `FL.HIT = 0`. -/
  | notFound (t : State)
  /-- The triples (tag, payload length, crc) in sequence order (R179). -/
  | listing (rows : List (Nat × Nat × Nat)) (t : State)
  /-- The failure of the first command that failed, in the status registers of `t` (R175 (b)). -/
  | failed (t : State)
  /-- A step has no meaning (R200). -/
  | refused (r : Refusal)
  deriving DecidableEq, Repr

/-- What follows a script: its failure ends the use-case (R175 (b)). -/
def afterScript (e : ScriptEnd) (next : State → UseCase) : UseCase :=
  match e with
  | .ended t => next t
  | .failed t => .failed t
  | .refused r => .refused r

/-- `HOST.READ OBUF[0 .. OLEN)`, given to the host as `result` (R176, R177, R178). -/
def readObuf (result : List Byte → State → UseCase) (t : State) : UseCase :=
  match readTarget t (.bytes .obuf 0 t.obuf.length) with
  | some (.bytes bs) => result bs t
  | some (.number _) => .refused (.readOutOfRange (.bytes .obuf 0 t.obuf.length))
  | none => .refused (.readOutOfRange (.bytes .obuf 0 t.obuf.length))

/-- The steps of `EMBED` before the output is read (R176). -/
def embedScript (src text message : List Byte) : List Input :=
  [.access (.loadIbuf src), issue .ctParse, issue (.tagLdt text), .access (.loadPbuf message),
    issue .chNew, issue .ctApp, issue .ctSer]

/-- `EMBED tag_text, message` (R176). -/
def embed (src text message : List Byte) (s : State) : UseCase :=
  afterScript (runScript (embedScript src text message) s) (readObuf .output)

/-- The steps of `EXTRACT` up to the lookup (R177). -/
def extractScript (src key : List Byte) : List Input :=
  [.access (.loadIbuf src), issue .ctParse, issue (.ctFind key)]

/-- `EXTRACT tag_text` (R177): the host reads `FL.HIT` after the lookup. -/
def extract (src key : List Byte) (s : State) : UseCase :=
  afterScript (runScript (extractScript src key) s) fun t =>
    if t.fl.hit then afterScript (runScript [issue .chTxt] t) (readObuf .text) else .notFound t

/-- The steps of `DELETE` before the output is read (R178). -/
def deleteScript (src key : List Byte) : List Input :=
  [.access (.loadIbuf src), issue .ctParse, issue (.ctRem key), issue .ctSer]

/-- `DELETE tag_text` (R178). -/
def delete (src key : List Byte) (s : State) : UseCase :=
  afterScript (runScript (deleteScript src key) s) (readObuf .output)

/-- The steps of `RENDER` before the container is read (R179). -/
def renderScript (src : List Byte) : List Input := [.access (.loadIbuf src), issue .ctParse]

/-- `HOST.READ CSEQ[i].tag, CSEQ[i].len, CSEQ[i].crc` (R179). -/
def readRow (t : State) (i : Nat) : Option (Nat × Nat × Nat) :=
  match readTarget t (.cseqTag i), readTarget t (.cseqLen i), readTarget t (.cseqCrc i) with
  | some (.number tag), some (.number len), some (.number crc) => some (tag, len, crc)
  | _, _, _ => none

/-- The rows of the entries `is`, in that order, when all of them exist (R179). -/
def readRows (t : State) : List Nat → Option (List (Nat × Nat × Nat))
  | [] => some []
  | i :: is =>
    match readRow t i, readRows t is with
    | some row, some rows => some (row :: rows)
    | _, _ => none

/-- `RENDER` (R179): the host reads `N`, then every entry in index order. -/
def render (src : List Byte) (s : State) : UseCase :=
  afterScript (runScript (renderScript src) s) fun t =>
    match readRows t (List.range t.cseq.length) with
    | some rows => .listing rows t
    | none => .refused (.readOutOfRange .n)

end Sys2Proof.Machine
end

