-- ==== Sys2Proof/Safety.lean ====
section
/-! DEFINITION. What a good state is (R23, R29, R144), which commands need a chunk (R149), which byte
strings are commands (R76, R78), what a UTF-8 character is (R145), and runs of several commands: the
terms that the statements use. -/

namespace Sys2Proof.Machine

/-- The chunk invariant of one chunk (R135). -/
def chunkOk (c : Chunk) : Prop :=
  c.crc = crc32 (be32 c.tag ++ c.pay) ∧ c.pay.length ≤ 4294967295

/-- The chunk invariant (R23): of `W` when `W.V = 1`, and of every chunk of `CSEQ`. -/
def State.chunksOk (s : State) : Prop :=
  (s.w.v = true → chunkOk s.w.chunk) ∧ ∀ c ∈ s.cseq, chunkOk c

/-- The status registers hold what R29, R187 and R189 allow: a code 0 to 6, nothing named after a
success, and 0 in a field whose `EVAL` bit is 0. -/
def State.reportOk (s : State) : Prop :=
  s.status.toNat ≤ 6 ∧ (s.status = 0 → s.eval = 0) ∧
    (s.eval.getLsbD 0 = false → s.eoff = 0) ∧ (s.eval.getLsbD 1 = false → s.etag = 0)

/-- While `W.V = 0` the fields of `W` hold their reset values (R144, R22). -/
def State.workOk (s : State) : Prop := s.w.v = false → s.w = { v := false, tag := 0, pay := [], crc := 0 }

/-- The commands that read a chunk from `W` (R149). -/
def needsChunk (i : Instr) : Prop := i = .chSer ∨ i = .chTxt ∨ i = .ctApp

/-- The four bytes are letters, `A` to `Z` or `a` to `z` (R116). -/
def fourLetters (text : List Byte) : Prop :=
  text.length = 4 ∧
    ∀ b ∈ text, (0x41 ≤ b.toNat ∧ b.toNat ≤ 0x5A) ∨ (0x61 ≤ b.toNat ∧ b.toNat ≤ 0x7A)

/-- The byte strings that fit a format of a defined opcode (R76, R77). -/
def fitsAFormat (bs : List Byte) : Prop :=
  (∃ op : Byte,
      op ∈ [0x10#8, 0x12#8, 0x22#8, 0x24#8, 0x25#8, 0x26#8, 0x27#8, 0x30#8, 0x31#8, 0x32#8, 0x33#8,
        0x40#8, 0x41#8, 0x42#8, 0x43#8] ∧ bs = [op]) ∨
    (∃ d : Byte, bs = [0x11#8, d]) ∨
    (∃ op b0 b1 b2 b3 : Byte, op ∈ [0x20#8, 0x23#8] ∧ bs = [op, b0, b1, b2, b3]) ∨
    (∃ (op n : Byte) (text : List Byte),
      op ∈ [0x21#8, 0x44#8, 0x45#8] ∧ bs = op :: n :: text ∧ text.length = n.toNat)

/-- The rows of the table of well-formed UTF-8 characters: the range of each byte (R145). -/
def utf8Rows : List (List (Nat × Nat)) :=
  [[(0x00, 0x7F)],
    [(0xC2, 0xDF), (0x80, 0xBF)],
    [(0xE0, 0xE0), (0xA0, 0xBF), (0x80, 0xBF)],
    [(0xE1, 0xEC), (0x80, 0xBF), (0x80, 0xBF)],
    [(0xED, 0xED), (0x80, 0x9F), (0x80, 0xBF)],
    [(0xEE, 0xEF), (0x80, 0xBF), (0x80, 0xBF)],
    [(0xF0, 0xF0), (0x90, 0xBF), (0x80, 0xBF), (0x80, 0xBF)],
    [(0xF1, 0xF3), (0x80, 0xBF), (0x80, 0xBF), (0x80, 0xBF)],
    [(0xF4, 0xF4), (0x80, 0x8F), (0x80, 0xBF), (0x80, 0xBF)]]

/-- One well-formed character: its bytes lie in the ranges of a row of the table (R145). -/
def isUtf8Char (c : List Byte) : Prop :=
  ∃ row ∈ utf8Rows, List.Forall₂ (fun (b : Byte) (r : Nat × Nat) => r.1 ≤ b.toNat ∧ b.toNat ≤ r.2) c row

/-- Commands in the order the host issues them, each from the state the one before it left (R59). -/
def execAll : List Instr → State → Host.Outcome State Fault Refusal
  | [], s => .next s
  | i :: rest, s =>
    match exec i s with
    | .next t => execAll rest t
    | .fault f => .fault f
    | .refused r => .refused r

/-- The frame of a tag and a payload: length, tag, payload, checksum, big-endian (R71). -/
def frameBytes (t : Word) (p : List Byte) (crc : Word) : List Byte :=
  be32 (BitVec.ofNat 32 p.length) ++ be32 t ++ p ++ be32 crc

/-- `s` with bit `k` of its byte `i` inverted. -/
def flipBit (s : List Byte) (i k : Nat) : List Byte := s.modify i fun b => b ^^^ (1#8 <<< k)

/-- The two states differ at most in what the block holds only as results for the host: `FL`, the status
registers, `OBUF`, `CRCO`, `IDX` (R28, R29, R33, R25, R26). -/
def sameButResults (s t : State) : Prop :=
  t = { s with
    fl := t.fl, status := t.status, eoff := t.eoff, etag := t.etag, eval := t.eval,
    obuf := t.obuf, crco := t.crco, idx := t.idx }

end Sys2Proof.Machine
end

