-- ==== Sys2Proof/Certificates/Slice0/Obligations.lean ====
section
/-! DEFINITION. The statements for the provers, from the numbered rules of the spec. -/

open Sys2Proof Sys2Proof.Machine

/-! ### Command strings and the step -/

/-- A few command strings written out from the formats and the opcode map (R76, R77) decode to the
commands they stand for. -/
def Obligations.WrittenOutStringsDecode : Prop :=
  decode [0x10#8] = .ok .crcInit ∧
  decode [0x11#8, 0x31#8] = .ok (.crcUpd 0x31#8) ∧
  decode [0x20#8, 0x52#8, 0x75#8, 0x53#8, 0x74#8] = .ok (.tagLdb 0x52#8 0x75#8 0x53#8 0x74#8) ∧
  decode [0x21#8, 0x04#8, 0x54#8, 0x45#8, 0x53#8, 0x54#8] =
    .ok (.tagLdt [0x54#8, 0x45#8, 0x53#8, 0x54#8]) ∧
  decode [0x31#8] = .ok .chParse ∧
  decode [0x44#8, 0x03#8, 0x54#8, 0x45#8, 0x53#8] = .ok (.ctFind [0x54#8, 0x45#8, 0x53#8]) ∧
  decode [0x45#8, 0x00#8] = .ok (.ctRem []) ∧
  decode [0x13#8] = .error (.reservedOpcode 0x13#8) ∧
  decode [0x10#8, 0x00#8] = .error (.badLength 0x10#8)

/-- Decoding the string of a well-formed command gives the command back, with every operand at every
value the encoding admits (R76, R77). -/
def Obligations.DecodeOfEncodeIsTheCommand : Prop :=
  ∀ i : Instr, i.wf = true → decode (encode i) = .ok i

/-- A string that decodes is the string of the command it decodes to, and that command is well-formed:
no command has two strings (R76, R77). -/
def Obligations.EncodeOfDecodeIsTheString : Prop :=
  ∀ (bs : List Byte) (i : Instr), decode bs = .ok i → i.wf = true ∧ encode i = bs

/-- The byte strings that decode are exactly those that fit a format of one of the 21 defined opcodes
(R76, R77, R78). -/
def Obligations.ExactlyTheFormattedStringsDecode : Prop :=
  ∀ bs : List Byte, (∃ i, decode bs = .ok i) ↔ fitsAFormat bs

/-- A presented string with a reserved opcode is refused as that opcode, and any other that fits no format
as a malformed string: neither is a no-operation or gives a `STATUS` (R78). -/
def Obligations.ReservedAndMalformedStringsAreRefused : Prop :=
  ∀ (s : State) (bs : List Byte) (rest : List Input),
    s.inputs = .command bs :: rest → ¬ fitsAFormat bs →
      ∃ r : Refusal, step s = .refused r ∧
        ((∃ op : Byte, r = .reservedOpcode op ∧ bs.head? = some op ∧ ∀ i : Instr, opcode i ≠ op) ∨
          (r = .malformedCommand bs ∧ ∀ op : Byte, bs.head? = some op → ∃ i : Instr, opcode i = op))

/-- When the presented string decodes, the step is the command's `exec` on the state without that input
(R5, R59). -/
def Obligations.StepRunsTheDecodedCommand : Prop :=
  ∀ (s : State) (bs : List Byte) (rest : List Input) (i : Instr),
    s.inputs = .command bs :: rest → decode bs = .ok i → step s = exec i { s with inputs := rest }

/-- Every command runs to completion in every state, but that the three that read a chunk from `W` need
`W.V = 1` (R223, R149). -/
def Obligations.EveryCommandCompletes : Prop :=
  ∀ (i : Instr) (s : State), (needsChunk i → s.w.v = true) → ∃ t : State, exec i s = .next t

/-- `CH.SER`, `CH.TXT` and `CT.APP` are refused while `W.V = 0`; that is so after reset, ends with the
first success of a command that writes `W`, and cannot return, because no command clears `W.V` (R149). -/
def Obligations.ChunkReadersAreRefusedWithoutAChunk : Prop :=
  (∀ (i : Instr) (s : State), needsChunk i → s.w.v = false → exec i s = .refused .noChunk) ∧
  State.reset.w.v = false ∧
  (∀ (i : Instr) (s t : State), exec i s = .next t → t.status = 0 →
    (i = .chNew ∨ i = .chParse ∨ (∃ key, i = .ctRem key) ∨ (∃ key, i = .ctFind key ∧ t.fl.hit = true)) →
      t.w.v = true) ∧
  (∀ (i : Instr) (s t : State), exec i s = .next t → s.w.v = true → t.w.v = true)

/-! ### The CRC generator -/

/-- `CRC.INIT` loads the start value and `CRC.FIN` writes the final xor; `CRC.FIN` leaves `CRCR` and
`CRC.INIT` leaves `CRCO` (R104, R106). -/
def Obligations.CrcInitAndFinWriteTheirRegister : Prop :=
  decode [0x10#8] = .ok .crcInit ∧ decode [0x12#8] = .ok .crcFin ∧
  ∀ s : State,
    exec .crcInit s =
      .next { s with crcr := 0xFFFFFFFF#32, status := 0, eval := 0, eoff := 0, etag := 0 } ∧
    exec .crcFin s =
      .next { s with crco := s.crcr ^^^ 0xFFFFFFFF#32, status := 0, eval := 0, eoff := 0, etag := 0 }

/-- `CRC.UPD d` in the second form of R101: the byte is xored in, then eight shift steps (R105). -/
def Obligations.CrcUpdIsXorThenEightShifts : Prop :=
  ∀ (d : Byte) (s : State), decode [0x11#8, d] = .ok (.crcUpd d) ∧ exec (.crcUpd d) s =
    .next { s with
      crcr := (fun c : Word => if c.getLsbD 0 then (c >>> 1) ^^^ 0xEDB88320#32 else c >>> 1)^[8]
        (s.crcr ^^^ d.setWidth 32)
      status := 0, eval := 0, eoff := 0, etag := 0 }

/-- The byte step by the table (R102). -/
def Obligations.CrcByteIsTheTableStep : Prop :=
  ∀ (c : Word) (b : Byte),
    crcByte c b = crcTable ((c ^^^ b.setWidth 32).setWidth 8) ^^^ (c >>> 8)

/-- The stream interface computes `Crc32` of every byte sequence, and changes nothing but `CRCR`, `CRCO`
and the status registers (R103 to R106). -/
def Obligations.CrcStreamComputesTheChecksum : Prop :=
  ∀ (s : State) (msg : List Byte), ∃ t : State,
    execAll (.crcInit :: msg.map Instr.crcUpd ++ [.crcFin]) s = .next t ∧
      t = { s with
        crcr := t.crcr, crco := crc32 msg, status := 0, eval := 0, eoff := 0, etag := 0 }

/-- One inverted bit changes the checksum (R107). -/
def Obligations.OneFlippedBitChangesTheChecksum : Prop :=
  ∀ (s : List Byte) (i k : Nat), i < s.length → k < 8 → crc32 (flipBit s i k) ≠ crc32 s

/-- Every command other than the three of the generator leaves `CRCR` and `CRCO` alone and gives the same
result whatever they hold (R24, R108). -/
def Obligations.OtherCommandsIgnoreTheCrcRegisters : Prop :=
  ∀ (i : Instr) (s : State) (a b : Word),
    i ≠ .crcInit → (∀ d, i ≠ .crcUpd d) → i ≠ .crcFin →
      exec i { s with crcr := a, crco := b } =
        match exec i s with
        | .next t => .next { t with crcr := a, crco := b }
        | .fault f => .fault f
        | .refused r => .refused r

/-! ### The tag unit -/

/-- `TAG.LDB`: byte `k` of the operand is `TAG[31-8k : 24-8k]`, whatever the bytes are (R119, R21). -/
def Obligations.TagLdbLoadsTheFourBytes : Prop :=
  ∀ (b0 b1 b2 b3 : Byte) (s : State),
    decode [0x20#8, b0, b1, b2, b3] = .ok (.tagLdb b0 b1 b2 b3) ∧ ∃ t : State,
    exec (.tagLdb b0 b1 b2 b3) s = .next t ∧
      t = { s with tag := t.tag, status := 0, eval := 0, eoff := 0, etag := 0 } ∧
      t.tag.extractLsb' 24 8 = b0 ∧ t.tag.extractLsb' 16 8 = b1 ∧
      t.tag.extractLsb' 8 8 = b2 ∧ t.tag.extractLsb' 0 8 = b3

/-- `TAG.LDT`: four letters are loaded, every other text is a FormatError that names nothing and leaves
`TAG` (R120, R187). -/
def Obligations.TagLdtLoadsExactlyFourLetters : Prop :=
  (∀ text : List Byte, text.length ≤ 255 →
    decode (0x21#8 :: BitVec.ofNat 8 text.length :: text) = .ok (.tagLdt text)) ∧
  (∀ (b0 b1 b2 b3 : Byte) (s : State), fourLetters [b0, b1, b2, b3] → ∃ t : State,
    exec (.tagLdt [b0, b1, b2, b3]) s = .next t ∧
      t = { s with tag := t.tag, status := 0, eval := 0, eoff := 0, etag := 0 } ∧
      be32 t.tag = [b0, b1, b2, b3]) ∧
  (∀ (text : List Byte) (s : State), ¬ fourLetters text →
    exec (.tagLdt text) s = .next { s with status := 4, eval := 0, eoff := 0, etag := 0 })

/-- `TAG.RDT`: the four tag bytes when all are below `0x80`, whether letters or not (R122). That a tag with
a byte of `0x80` or above gives the parameter `LossyText` is the model's choice, log entry 6 (DESIGN
CHOICE): R128 lets a model take that parameter or refuse. -/
def Obligations.TagRdtWritesTheTagText : Prop :=
  decode [0x22#8] = .ok .tagRdt ∧
  (∀ s : State, (∀ b ∈ be32 s.tag, b.toNat < 0x80) →
    exec .tagRdt s =
      .next { s with
        obuf := [s.tag.extractLsb' 24 8, s.tag.extractLsb' 16 8, s.tag.extractLsb' 8 8,
          s.tag.extractLsb' 0 8]
        status := 0, eval := 0, eoff := 0, etag := 0 }) ∧
  (∀ s : State, (∃ b ∈ be32 s.tag, 0x80 ≤ b.toNat) →
    exec .tagRdt s =
      .next { s with
        obuf := Config.lossyText s.tag, status := 0, eval := 0, eoff := 0, etag := 0 })

/-- `TAG.CMP`: `EQ` says that all four bytes are equal, `LT` that at the first position where they differ
the byte of `TAG` is the smaller; nothing else is written (R118, R123). -/
def Obligations.TagCmpComparesByteByByte : Prop :=
  ∀ (k0 k1 k2 k3 : Byte) (s : State),
    decode [0x23#8, k0, k1, k2, k3] = .ok (.tagCmp k0 k1 k2 k3) ∧ ∃ t : State,
    exec (.tagCmp k0 k1 k2 k3) s = .next t ∧
      t = { s with
        fl := { s.fl with eq := t.fl.eq, lt := t.fl.lt }
        status := 0, eval := 0, eoff := 0, etag := 0 } ∧
      ∀ t0 t1 t2 t3 : Byte, be32 s.tag = [t0, t1, t2, t3] →
        (t.fl.eq = true ↔ t0 = k0 ∧ t1 = k1 ∧ t2 = k2 ∧ t3 = k3) ∧
        (t.fl.lt = true ↔
          t0.toNat < k0.toNat ∨ t0 = k0 ∧ (t1.toNat < k1.toNat ∨ t1 = k1 ∧
            (t2.toNat < k2.toNat ∨ t2 = k2 ∧ t3.toNat < k3.toNat)))

/-- The four predicates read bit 5 of one tag byte each, for every tag, and write `P` only; safe-to-copy
is not inverted (R117, R124 to R127). -/
def Obligations.TagPredicatesReadBitFive : Prop :=
  decode [0x24#8] = .ok .tagCrit ∧ decode [0x25#8] = .ok .tagPub ∧ decode [0x26#8] = .ok .tagRsv ∧
  decode [0x27#8] = .ok .tagSafe ∧
  ∀ (t0 t1 t2 t3 : Byte) (s : State), be32 s.tag = [t0, t1, t2, t3] →
    exec .tagCrit s = .next { s with
      fl := { s.fl with p := decide (t0 &&& 0x20#8 = 0) }, status := 0, eval := 0, eoff := 0, etag := 0 } ∧
    exec .tagPub s = .next { s with
      fl := { s.fl with p := decide (t1 &&& 0x20#8 = 0) }, status := 0, eval := 0, eoff := 0, etag := 0 } ∧
    exec .tagRsv s = .next { s with
      fl := { s.fl with p := decide (t2 &&& 0x20#8 = 0) }, status := 0, eval := 0, eoff := 0, etag := 0 } ∧
    exec .tagSafe s = .next { s with
      fl := { s.fl with p := decide (t3 &&& 0x20#8 ≠ 0) }, status := 0, eval := 0, eoff := 0, etag := 0 }

/-- For a tag of four letters the predicates say upper case, upper case, upper case and lower case (R117,
R72). -/
def Obligations.LetterCaseGivesTheProperties : Prop :=
  ∀ (t : Word) (t0 t1 t2 t3 : Byte), be32 t = [t0, t1, t2, t3] → fourLetters [t0, t1, t2, t3] →
    (critical t = true ↔ 0x41 ≤ t0.toNat ∧ t0.toNat ≤ 0x5A) ∧
    (isPublic t = true ↔ 0x41 ≤ t1.toNat ∧ t1.toNat ≤ 0x5A) ∧
    (reservedValid t = true ↔ 0x41 ≤ t2.toNat ∧ t2.toNat ≤ 0x5A) ∧
    (safeToCopy t = true ↔ 0x61 ≤ t3.toNat ∧ t3.toNat ≤ 0x7A)

/-! ### The chunk unit -/

/-- `CH.NEW`: a chunk from `TAG` and `PBUF`, or FormatError naming `TAG` when the payload is too long
(R140, R187). -/
def Obligations.ChNewBuildsTheChunk : Prop :=
  decode [0x30#8] = .ok .chNew ∧
  (∀ s : State, s.pbuf.length ≤ 4294967295 →
    exec .chNew s = .next { s with
      w := { v := true, tag := s.tag, pay := s.pbuf, crc := crc32 (be32 s.tag ++ s.pbuf) }
      status := 0, eval := 0, eoff := 0, etag := 0 }) ∧
  (∀ s : State, 4294967295 < s.pbuf.length →
    exec .chNew s = .next { s with status := 4, eval := 2, eoff := 0, etag := s.tag })

/-- `CH.PARSE` on a whole frame at the cursor, with its right checksum: the chunk goes to `W` and the
cursor past the frame; whatever follows is ignored. A tag that is not four letters is a FormatError
exactly when `TAG_CHECK_ON_PARSE` is 1 (R139, R141, R187). -/
def Obligations.ChParseReadsOneFrame : Prop :=
  ∀ (s : State) (before after p : List Byte) (t : Word),
    s.ibuf = before ++ frameBytes t p (crc32 (be32 t ++ p)) ++ after →
    s.cur = before.length → p.length ≤ 4294967295 →
      (fourLetters (be32 t) →
        exec .chParse s = .next { s with
          w := { v := true, tag := t, pay := p, crc := crc32 (be32 t ++ p) }
          cur := s.cur + 12 + p.length, status := 0, eval := 0, eoff := 0, etag := 0 }) ∧
      (¬ fourLetters (be32 t) →
        exec .chParse s = .next
          (if Config.TAG_CHECK_ON_PARSE then
            { s with status := 4, eval := 3, eoff := s.cur, etag := t }
          else
            { s with
              w := { v := true, tag := t, pay := p, crc := crc32 (be32 t ++ p) }
              cur := s.cur + 12 + p.length, status := 0, eval := 0, eoff := 0, etag := 0 }))

/-- `CH.PARSE` on a frame that is cut short: TruncatedInput at the cursor, naming the tag when 8 bytes are
there; the sum with the length field does not wrap (R139, R141, R187, R216). -/
def Obligations.ChParseReportsTruncation : Prop :=
  (∀ s : State, s.ibuf.length < s.cur + 8 →
    exec .chParse s = .next { s with status := 1, eval := 1, eoff := s.cur, etag := 0 }) ∧
  (∀ (s : State) (before rest : List Byte) (len t : Word),
    s.ibuf = before ++ be32 len ++ be32 t ++ rest → s.cur = before.length →
    rest.length < len.toNat + 4 →
      exec .chParse s = .next { s with status := 1, eval := 3, eoff := s.cur, etag := t })

/-- `CH.PARSE` on a whole frame whose stored checksum is not the recomputed one: ChecksumMismatch at the
cursor with the tag as read, whether the tag is letters or not (R139, R141, R187, R191). -/
def Obligations.ChParseReportsAWrongChecksum : Prop :=
  ∀ (s : State) (before after p : List Byte) (t k : Word),
    s.ibuf = before ++ frameBytes t p k ++ after → s.cur = before.length → p.length ≤ 4294967295 →
    k ≠ crc32 (be32 t ++ p) →
      exec .chParse s = .next { s with status := 3, eval := 3, eoff := s.cur, etag := t }

/-- The cursor advances only over a frame that lies inside `IBUF` (R27, R141). -/
def Obligations.TheCursorStaysInsideTheBuffer : Prop :=
  ∀ s t : State, exec .chParse s = .next t → t.status = 0 →
    t.cur = s.cur + 12 + t.w.pay.length ∧ t.cur ≤ s.ibuf.length ∧ t.w.v = true ∧
      frameBytes t.w.tag t.w.pay t.w.crc = (s.ibuf.drop s.cur).take (12 + t.w.pay.length)

/-- `CH.SER`: the frame of `W` with its stored checksum, and a refusal while `W.V = 0` (R142). -/
def Obligations.ChSerWritesTheFrame : Prop :=
  decode [0x32#8] = .ok .chSer ∧
  (∀ s : State, s.w.v = false → exec .chSer s = .refused .noChunk) ∧
  (∀ s : State, s.w.v = true →
    exec .chSer s = .next { s with
      obuf := be32 (BitVec.ofNat 32 s.w.pay.length) ++ be32 s.w.tag ++ s.w.pay ++ be32 s.w.crc
      status := 0, eval := 0, eoff := 0, etag := 0 })

/-- `CH.TXT`: the payload when it is a sequence of well-formed UTF-8 characters, else EncodingError naming
`W.TAG`; a refusal while `W.V = 0` (R143, R145). -/
def Obligations.ChTxtGivesUtf8Text : Prop :=
  decode [0x33#8] = .ok .chTxt ∧
  (∀ s : State, s.w.v = false → exec .chTxt s = .refused .noChunk) ∧
  (∀ s : State, s.w.v = true →
    (∃ cs : List (List Byte), s.w.pay = cs.flatten ∧ ∀ c ∈ cs, isUtf8Char c) →
      exec .chTxt s = .next { s with
        obuf := s.w.pay, status := 0, eval := 0, eoff := 0, etag := 0 }) ∧
  (∀ s : State, s.w.v = true →
    (¬ ∃ cs : List (List Byte), s.w.pay = cs.flatten ∧ ∀ c ∈ cs, isUtf8Char c) →
      exec .chTxt s = .next { s with status := 5, eval := 2, eoff := 0, etag := s.w.tag })

/-- Parsing the serialized form of a chunk gives the chunk and its frame's size back, whatever follows; a
tag that is not four letters is a FormatError exactly when the check is on. What a parse accepts
serializes to the bytes it took. In commands: `CH.SER`, loading `IBUF` with the bytes of `OBUF`, setting the
cursor to 0, and `CH.PARSE` leave `W` as it was and the cursor at `OLEN` (R146 and, for what follows the
frame, R139; the run of commands is what the spec derives from R137, R139, R141 and R142). -/
def Obligations.ChunkParseInvertsSerialize : Prop :=
  (∀ (check : Bool) (c : Chunk) (after : List Byte), chunkOk c →
    ((check = true → fourLetters (be32 c.tag)) →
      chunkParse check (chunkSer c ++ after) = .ok (c, 12 + c.pay.length)) ∧
    (check = true → ¬ fourLetters (be32 c.tag) →
      chunkParse check (chunkSer c ++ after) =
        .error { kind := .formatError, tag := some c.tag })) ∧
  (∀ (check : Bool) (buf : List Byte) (c : Chunk) (size : Nat),
    chunkParse check buf = .ok (c, size) →
      chunkOk c ∧ size = 12 + c.pay.length ∧ size ≤ buf.length ∧ chunkSer c = buf.take size) ∧
  (∀ s : State, s.w.v = true → chunkOk s.w.chunk →
    (Config.TAG_CHECK_ON_PARSE = true → fourLetters (be32 s.w.tag)) →
    ∃ t1 t2 t3 t4 : State,
      exec .chSer s = .next t1 ∧ perform (.access (.loadIbuf t1.obuf)) t1 = .next t2 ∧
      perform (.access (.setCur 0)) t2 = .next t3 ∧ exec .chParse t3 = .next t4 ∧
      t4.w = s.w ∧ t4.cur = t1.obuf.length ∧ t4.status = 0)

/-- Every single flipped bit in the tag, the payload or the checksum of a serialized chunk is reported as
ChecksumMismatch, with the tag as read, whether or not tags are checked (R147, R191; the flips in the
checksum field are what the spec derives from R139). -/
def Obligations.EveryFlippedBitIsAChecksumMismatch : Prop :=
  ∀ (check : Bool) (c : Chunk) (i k : Nat),
    chunkOk c → 4 ≤ i → i < 12 + c.pay.length → k < 8 →
      chunkParse check (flipBit (chunkSer c) i k) =
        .error { kind := .checksumMismatch, tag := some (rd32 (flipBit (chunkSer c) i k) 4) }

/-! ### The container unit -/

/-- `CT.PARSE` on a whole stream: the container is replaced by the stream's chunks in stream order, none
rejected for its tag's meaning or for being a duplicate, and the cursor goes to `ILEN` (R157, R161). -/
def Obligations.CtParseReadsTheWholeStream : Prop :=
  ∀ (s : State) (q : List Chunk),
    s.ibuf = be32 (Config.SIG.extractLsb' 32 32) ++ be32 (Config.SIG.extractLsb' 0 32) ++
      (q.map fun c => frameBytes c.tag c.pay c.crc).flatten →
    (∀ c ∈ q, chunkOk c) →
    (Config.TAG_CHECK_ON_PARSE = true → ∀ c ∈ q, fourLetters (be32 c.tag)) →
      exec .ctParse s = .next { s with
        cseq := q, cur := s.ibuf.length, status := 0, eval := 0, eoff := 0, etag := 0 }

/-- `CT.PARSE` on a stream with a bad start: fewer than 8 bytes are TruncatedInput whatever they are, and
8 or more whose first 8 are not the signature are SignatureMismatch, before any frame is looked at (R157,
R187, R191). -/
def Obligations.CtParseChecksTheSignatureFirst : Prop :=
  (∀ s : State, s.ibuf.length < 8 →
    exec .ctParse s = .next { s with status := 1, eval := 1, eoff := 0, etag := 0 }) ∧
  (∀ s : State, 8 ≤ s.ibuf.length →
    s.ibuf.take 8 ≠ be32 (Config.SIG.extractLsb' 32 32) ++ be32 (Config.SIG.extractLsb' 0 32) →
      exec .ctParse s = .next { s with status := 2, eval := 1, eoff := 0, etag := 0 })

/-- `CT.PARSE` reports the first frame in stream order that fails, with the failure the chunk deframer
gives it, at the offset where that frame starts, and keeps the old container (R157, R161, R187, R191). -/
def Obligations.CtParseReportsTheFirstBadFrame : Prop :=
  ∀ (s : State) (q : List Chunk) (bad : List Byte) (f : FrameFail),
    s.ibuf = sigBytes ++ (q.map chunkSer).flatten ++ bad →
    (∀ c ∈ q, chunkOk c) →
    (Config.TAG_CHECK_ON_PARSE = true → ∀ c ∈ q, fourLetters (be32 c.tag)) →
    bad ≠ [] → chunkParse Config.TAG_CHECK_ON_PARSE bad = .error f →
      exec .ctParse s = .next { s with
        status := f.kind.code, eval := if f.tag.isSome then 3 else 1
        eoff := s.ibuf.length - bad.length, etag := f.tag.getD 0 }

/-- Parsing the serialized form of a container gives its chunk sequence back, and what a parse accepts
serializes to exactly the bytes that were parsed (R167). -/
def Obligations.ContainerParseInvertsSerialize : Prop :=
  (∀ (sig : List Byte) (check : Bool) (q : List Chunk), sig.length = 8 →
    (∀ c ∈ q, chunkOk c) → (check = true → ∀ c ∈ q, fourLetters (be32 c.tag)) →
      contParse sig check (contSer sig q) = .ok q) ∧
  (∀ (sig : List Byte) (check : Bool) (buf : List Byte) (q : List Chunk), sig.length = 8 →
    contParse sig check buf = .ok q → contSer sig q = buf ∧ ∀ c ∈ q, chunkOk c)

/-- `CT.SER`: the signature, then every chunk's frame in index order (R156, R162). -/
def Obligations.CtSerWritesTheStream : Prop :=
  decode [0x42#8] = .ok .ctSer ∧
  ∀ s : State, exec .ctSer s =
    .next { s with
      obuf := be32 (Config.SIG.extractLsb' 32 32) ++ be32 (Config.SIG.extractLsb' 0 32) ++
        (s.cseq.map fun c => frameBytes c.tag c.pay c.crc).flatten
      status := 0, eval := 0, eoff := 0, etag := 0 }

/-- `CT.NEW` empties the container and `CT.APP` adds a copy of `W` at its end, nothing deduplicated, or is
refused while `W.V = 0` (R160, R163). -/
def Obligations.CtNewEmptiesAndCtAppAppends : Prop :=
  decode [0x40#8] = .ok .ctNew ∧ decode [0x43#8] = .ok .ctApp ∧
  (∀ s : State, exec .ctNew s =
    .next { s with cseq := [], status := 0, eval := 0, eoff := 0, etag := 0 }) ∧
  (∀ s : State, s.w.v = false → exec .ctApp s = .refused .noChunk) ∧
  (∀ s : State, s.w.v = true →
    exec .ctApp s = .next { s with
      cseq := s.cseq ++ [{ tag := s.w.tag, pay := s.w.pay, crc := s.w.crc }]
      status := 0, eval := 0, eoff := 0, etag := 0 })

/-- `CT.FIND`: the first chunk whose tag bytes are the key goes to `W`, its index to `IDX`; with no such
chunk only `HIT` is written, and `STATUS` is 0 both ways (R158, R159, R164). -/
def Obligations.CtFindFindsTheFirstMatch : Prop :=
  (∀ key : List Byte, key.length ≤ 255 →
    decode (0x44#8 :: BitVec.ofNat 8 key.length :: key) = .ok (.ctFind key)) ∧
  (∀ (s : State) (key : List Byte) (before after : List Chunk) (c : Chunk),
    s.cseq = before ++ c :: after → (∀ d ∈ before, be32 d.tag ≠ key) → be32 c.tag = key →
      exec (.ctFind key) s = .next { s with
        fl := { s.fl with hit := true }, idx := before.length
        w := { v := true, tag := c.tag, pay := c.pay, crc := c.crc }
        status := 0, eval := 0, eoff := 0, etag := 0 }) ∧
  (∀ (s : State) (key : List Byte), (∀ d ∈ s.cseq, be32 d.tag ≠ key) →
      exec (.ctFind key) s = .next { s with
        fl := { s.fl with hit := false }, status := 0, eval := 0, eoff := 0, etag := 0 })

/-- `CT.REM`: the first chunk whose tag bytes are the key leaves the container into `W`, the later ones
move down; with no such chunk it is NotFound, naming the key when it has 4 bytes (R158, R159, R165,
R187). -/
def Obligations.CtRemRemovesTheFirstMatch : Prop :=
  (∀ key : List Byte, key.length ≤ 255 →
    decode (0x45#8 :: BitVec.ofNat 8 key.length :: key) = .ok (.ctRem key)) ∧
  (∀ (s : State) (key : List Byte) (before after : List Chunk) (c : Chunk),
    s.cseq = before ++ c :: after → (∀ d ∈ before, be32 d.tag ≠ key) → be32 c.tag = key →
      exec (.ctRem key) s = .next { s with
        cseq := before ++ after, idx := before.length
        w := { v := true, tag := c.tag, pay := c.pay, crc := c.crc }
        status := 0, eval := 0, eoff := 0, etag := 0 }) ∧
  (∀ (s : State) (k : Word), (∀ d ∈ s.cseq, d.tag ≠ k) →
      exec (.ctRem (be32 k)) s = .next { s with status := 6, eval := 2, eoff := 0, etag := k }) ∧
  (∀ (s : State) (key : List Byte), key.length ≠ 4 →
      exec (.ctRem key) s = .next { s with status := 6, eval := 0, eoff := 0, etag := 0 })

/-! ### Whole-machine rules -/

/-- A failing command changes nothing but the four status registers (R190). -/
def Obligations.AFailureChangesOnlyTheStatusRegisters : Prop :=
  ∀ (i : Instr) (s t : State), exec i s = .next t → t.status ≠ 0 →
    t = { s with status := t.status, eval := t.eval, eoff := t.eoff, etag := t.etag }

/-- A command that ends without a failure leaves 0 in `EVAL`, `EOFF` and `ETAG` (R189). -/
def Obligations.ASuccessNamesNothing : Prop :=
  ∀ (i : Instr) (s t : State), exec i s = .next t → t.status = 0 →
    t.eval = 0 ∧ t.eoff = 0 ∧ t.etag = 0

/-- Which command can end with which code, and no other code is ever written (R185, R186). -/
def Obligations.EachCommandRaisesOnlyItsKinds : Prop :=
  ∀ (i : Instr) (s t : State), exec i s = .next t →
    t.status = 0 ∨
    (t.status = 1 ∧ (i = .chParse ∨ i = .ctParse)) ∨
    (t.status = 2 ∧ i = .ctParse) ∨
    (t.status = 3 ∧ (i = .chParse ∨ i = .ctParse)) ∨
    (t.status = 4 ∧ ((∃ text, i = .tagLdt text) ∨ i = .chNew ∨
      (Config.TAG_CHECK_ON_PARSE = true ∧ (i = .chParse ∨ i = .ctParse)))) ∨
    (t.status = 5 ∧ i = .chTxt) ∨
    (t.status = 6 ∧ ∃ key, i = .ctRem key)

/-- What each failure records: the offset and the tag it names, and 0 in a field that names nothing. The
offset is the first byte of the item that failed: the stream's for a signature failure, and for a frame
failure that of the first frame that fails, whose kind it is (R187). -/
def Obligations.EachFailureNamesItsItem : Prop :=
  ∀ (i : Instr) (s t : State), exec i s = .next t → t.status ≠ 0 →
    (∀ text, i = .tagLdt text → t.eval = 0 ∧ t.eoff = 0 ∧ t.etag = 0) ∧
    (i = .chNew → t.eval = 2 ∧ t.eoff = 0 ∧ t.etag = s.tag) ∧
    (i = .chTxt → t.eval = 2 ∧ t.eoff = 0 ∧ t.etag = s.w.tag) ∧
    (∀ key, i = .ctRem key → t.eoff = 0 ∧
      (key.length = 4 → t.eval = 2 ∧ be32 t.etag = key) ∧
      (key.length ≠ 4 → t.eval = 0 ∧ t.etag = 0)) ∧
    (i = .chParse → t.eoff = s.cur ∧
      (s.ibuf.length < s.cur + 8 → t.eval = 1 ∧ t.etag = 0) ∧
      (s.cur + 8 ≤ s.ibuf.length →
        t.eval = 3 ∧ be32 t.etag = slice s.ibuf (s.cur + 4) (s.cur + 8))) ∧
    (i = .ctParse →
      (s.ibuf.length < 8 ∨ t.status = 2 → t.eval = 1 ∧ t.eoff = 0 ∧ t.etag = 0) ∧
      (8 ≤ s.ibuf.length → t.status ≠ 2 →
        t.eoff < s.ibuf.length ∧
        (∃ q, s.ibuf.take t.eoff = contSer sigBytes q ∧ (∀ c ∈ q, chunkOk c) ∧
          (Config.TAG_CHECK_ON_PARSE = true → ∀ c ∈ q, fourLetters (be32 c.tag))) ∧
        (∃ f, chunkParse Config.TAG_CHECK_ON_PARSE (s.ibuf.drop t.eoff) = .error f ∧
          t.status = f.kind.code) ∧
        (s.ibuf.length < t.eoff + 8 → t.eval = 1 ∧ t.etag = 0) ∧
        (t.eoff + 8 ≤ s.ibuf.length →
          t.eval = 3 ∧ be32 t.etag = slice s.ibuf (t.eoff + 4) (t.eoff + 8))))

/-- The frame of every command: each register, flag, space and the container is changed by the commands
named for it and by no other; the input buffers, and the model's own `inputs` and `delivered`, by none
(R21, R22, R24 to R28, R31, R33). -/
def Obligations.EachRegisterHasOnlyItsWriters : Prop :=
  ∀ (i : Instr) (s t : State), exec i s = .next t →
    (t.tag ≠ s.tag → (∃ b0 b1 b2 b3, i = .tagLdb b0 b1 b2 b3) ∨ ∃ text, i = .tagLdt text) ∧
    (t.w ≠ s.w → i = .chNew ∨ i = .chParse ∨ (∃ key, i = .ctFind key) ∨ ∃ key, i = .ctRem key) ∧
    (t.crcr ≠ s.crcr → i = .crcInit ∨ ∃ d, i = .crcUpd d) ∧
    (t.crco ≠ s.crco → i = .crcFin) ∧
    (t.cur ≠ s.cur → i = .chParse ∨ i = .ctParse) ∧
    (t.idx ≠ s.idx → (∃ key, i = .ctFind key) ∨ ∃ key, i = .ctRem key) ∧
    (t.fl.p ≠ s.fl.p → i = .tagCrit ∨ i = .tagPub ∨ i = .tagRsv ∨ i = .tagSafe) ∧
    (t.fl.eq ≠ s.fl.eq ∨ t.fl.lt ≠ s.fl.lt → ∃ b0 b1 b2 b3, i = .tagCmp b0 b1 b2 b3) ∧
    (t.fl.hit ≠ s.fl.hit → ∃ key, i = .ctFind key) ∧
    (t.obuf ≠ s.obuf → i = .chSer ∨ i = .ctSer ∨ i = .chTxt ∨ i = .tagRdt) ∧
    (t.cseq ≠ s.cseq → i = .ctNew ∨ i = .ctParse ∨ i = .ctApp ∨ ∃ key, i = .ctRem key) ∧
    t.ibuf = s.ibuf ∧ t.pbuf = s.pbuf ∧ t.inputs = s.inputs ∧ t.delivered = s.delivered

/-- What the block holds only as results for the host (`FL`, the status registers, `OBUF`, `CRCO`, `IDX`)
never influences a command: from two states that differ at most there, a command ends in the same way, with
the same report, in states that differ at most there (R28, R29, R33). -/
def Obligations.ResultsNeverInfluenceACommand : Prop :=
  ∀ (i : Instr) (s s' : State), sameButResults s s' →
    match exec i s with
    | .next t => ∃ t', exec i s' = .next t' ∧ sameButResults t t' ∧
        t'.status = t.status ∧ t'.eval = t.eval ∧ t'.eoff = t.eoff ∧ t'.etag = t.etag
    | .fault f => exec i s' = .fault f
    | .refused r => exec i s' = .refused r

/-- The chunk invariant is kept by every step: `W` (when `W.V = 1`) and every chunk of `CSEQ` carry the
checksum of their tag and payload, and a payload is at most `MAX_PAYLOAD` bytes long (R23). -/
def Obligations.EveryStepKeepsTheChunkInvariant : Prop :=
  ∀ s t : State, s.chunksOk → step s = .next t → t.chunksOk

/-- Every step keeps the status registers legal: a code 0 to 6, nothing named after a success, and 0 in a
field whose `EVAL` bit is 0 (R29, R187, R189). -/
def Obligations.EveryStepKeepsTheReportLegal : Prop :=
  ∀ s t : State, s.reportOk → step s = .next t → t.reportOk

/-- While `W` holds no chunk its fields hold their reset values, which every step keeps (R144, R22). -/
def Obligations.EveryStepKeepsWSound : Prop :=
  ∀ s t : State, s.workOk → step s = .next t → t.workOk

/-- The three invariants hold in the state after reset. -/
def Obligations.TheInvariantsHoldAfterReset : Prop :=
  State.reset.chunksOk ∧ State.reset.reportOk ∧ State.reset.workOk

/-! ### Reset and the host -/

/-- The state after reset (R36); the empty `inputs` and `delivered` are the model's own (log entries 1, 2). -/
def Obligations.ResetGivesTheStatedValues : Prop :=
  State.reset.cseq = [] ∧ State.reset.tag = 0x00000000#32 ∧
  State.reset.w.v = false ∧ State.reset.w.tag = 0x00000000#32 ∧ State.reset.w.crc = 0x00000000#32 ∧
  State.reset.w.pay = [] ∧ State.reset.crcr = 0xFFFFFFFF#32 ∧ State.reset.crco = 0x00000000#32 ∧
  State.reset.cur = 0 ∧ State.reset.idx = 0 ∧
  State.reset.fl = { p := false, eq := false, lt := false, hit := false } ∧
  State.reset.status = 0 ∧ State.reset.eoff = 0 ∧ State.reset.etag = 0 ∧ State.reset.eval = 0 ∧
  State.reset.ibuf = [] ∧ State.reset.pbuf = [] ∧ State.reset.obuf = []

/-- Reset between two commands gives every piece of the block's state its reset value (R210); that the
outside's own queue and the values it has read stay is the model's choice (log entry 13). -/
def Obligations.ResetReplacesTheWholeState : Prop :=
  ∀ (s : State) (rest : List Input), s.inputs = .reset :: rest →
    step s = .next { State.reset with inputs := rest, delivered := s.delivered }

/-- What the commands do right after reset (R213). -/
def Obligations.CommandsRightAfterReset : Prop :=
  exec .ctSer State.reset = .next { State.reset with
    obuf := be32 (Config.SIG.extractLsb' 32 32) ++ be32 (Config.SIG.extractLsb' 0 32) } ∧
  (∀ key, exec (.ctFind key) State.reset = .next State.reset) ∧
  (∀ key, ∃ t, exec (.ctRem key) State.reset = .next t ∧ t.status = 6) ∧
  (∃ t, exec .ctParse State.reset = .next t ∧ t.status = 1) ∧
  (∃ t, exec .chParse State.reset = .next t ∧ t.status = 1) ∧
  exec .chNew State.reset = .next { State.reset with
    w := { v := true, tag := 0x00000000#32, pay := [], crc := 0x2144DF1C#32 } } ∧
  exec .crcFin State.reset = .next State.reset ∧
  exec .chSer State.reset = .refused .noChunk ∧ exec .chTxt State.reset = .refused .noChunk ∧
  exec .ctApp State.reset = .refused .noChunk ∧
  (∀ i : Instr, ¬ needsChunk i → ∃ t, exec i State.reset = .next t)

/-- A host load replaces one buffer whole and the cursor write sets the cursor; each changes nothing else
of the block, the container and `W` included (R55, R27, R33). -/
def Obligations.HostWritesChangeOnlyTheirTarget : Prop :=
  ∀ (s : State) (rest : List Input) (bs : List Byte) (v : BitVec 64),
    (s.inputs = .access (.loadIbuf bs) :: rest → step s = .next { s with inputs := rest, ibuf := bs }) ∧
    (s.inputs = .access (.loadPbuf bs) :: rest → step s = .next { s with inputs := rest, pbuf := bs }) ∧
    (s.inputs = .access (.setCur v) :: rest → step s = .next { s with inputs := rest, cur := v.toNat })

/-- A host read changes nothing of the block and gives the host one value, or is refused (R55, R35). What
is recorded of it is the model's own (log entry 2). -/
def Obligations.HostReadsChangeNothing : Prop :=
  ∀ (s : State) (rest : List Input) (x : ReadTarget), s.inputs = .access (.read x) :: rest →
    (∃ v : ReadValue, step s = .next { s with inputs := rest, delivered := s.delivered ++ [v] }) ∨
      step s = .refused (.readOutOfRange x)

/-- A host read of a register, a flag or a derived value gives it as a number, `FL` with `P` in bit 0 and
`HIT` in bit 3 (R35, R28, R30, R51). What is recorded of it is the model's own (log entry 2). -/
def Obligations.HostReadsGiveEveryRegister : Prop :=
  ∀ (s : State) (rest : List Input) (x : ReadTarget) (v : Nat),
    (x, v) ∈ [(.tag, s.tag.toNat), (.wV, if s.w.v then 1 else 0), (.wTag, s.w.tag.toNat),
      (.wLen, s.w.pay.length), (.wCrc, s.w.crc.toNat), (.crcr, s.crcr.toNat), (.crco, s.crco.toNat),
      (.cur, s.cur), (.idx, s.idx), (.flP, if s.fl.p then 1 else 0), (.flEq, if s.fl.eq then 1 else 0),
      (.flLt, if s.fl.lt then 1 else 0), (.flHit, if s.fl.hit then 1 else 0),
      (.fl, (if s.fl.p then 1 else 0) + (if s.fl.eq then 2 else 0) + (if s.fl.lt then 4 else 0) +
        if s.fl.hit then 8 else 0),
      (.status, s.status.toNat), (.eoff, s.eoff), (.etag, s.etag.toNat), (.eval, s.eval.toNat),
      (.ilen, s.ibuf.length), (.plen, s.pbuf.length), (.olen, s.obuf.length), (.n, s.cseq.length)] →
    s.inputs = .access (.read x) :: rest →
      step s = .next { s with inputs := rest, delivered := s.delivered ++ [.number v] }

/-- A host read of a piece of a space gives its bytes when it lies inside and is refused when it does not
(R50, U7) or ends before it begins (log entry 14); a read of `CSEQ[i]` gives the entry's tag, length and checksum when `i < N` and is refused when
not (R166). -/
def Obligations.HostReadsAreBounded : Prop :=
  (∀ (s : State) (rest : List Input) (space : Space) (before piece after : List Byte),
    spaceBytes s space = some (before ++ piece ++ after) →
    s.inputs =
      .access (.read (.bytes space before.length (before.length + piece.length))) :: rest →
      step s = .next { s with inputs := rest, delivered := s.delivered ++ [.bytes piece] }) ∧
  (∀ (s : State) (rest : List Input) (space : Space) (content : List Byte) (a b : Nat),
    spaceBytes s space = some content → content.length < b ∨ b < a →
    s.inputs = .access (.read (.bytes space a b)) :: rest →
      step s = .refused (.readOutOfRange (.bytes space a b))) ∧
  (∀ (s : State) (rest : List Input) (i : Nat) (c : Chunk) (x : ReadTarget) (v : Nat),
    s.cseq[i]? = some c →
    (x, v) ∈ [(.cseqTag i, c.tag.toNat), (.cseqLen i, c.pay.length), (.cseqCrc i, c.crc.toNat)] →
    s.inputs = .access (.read x) :: rest →
      step s = .next { s with inputs := rest, delivered := s.delivered ++ [.number v] }) ∧
  (∀ (s : State) (rest : List Input) (i a b : Nat) (x : ReadTarget), s.cseq.length ≤ i →
    x ∈ [.cseqTag i, .cseqLen i, .cseqCrc i, .bytes (.cseqPay i) a b] →
    s.inputs = .access (.read x) :: rest → step s = .refused (.readOutOfRange x))

/-! ### The four use-cases -/

/-- `EMBED`: the output is the source followed by the new frame, and the block is left with the source's
container and the new chunk at its end (R176, R180). -/
def Obligations.EmbedAppendsOneFrame : Prop :=
  ∀ (s : State) (src text message : List Byte) (tag : Word) (q : List Chunk),
    contParse sigBytes Config.TAG_CHECK_ON_PARSE src = .ok q →
    be32 tag = text → fourLetters text → message.length ≤ 4294967295 →
      ∃ t : State,
        embed src text message s =
          .output (src ++ frameBytes tag message (crc32 (text ++ message))) t ∧
        t.cseq = q ++ [{ tag := tag, pay := message, crc := crc32 (text ++ message) }] ∧
        t.cur = src.length ∧ t.status = 0

/-- `EXTRACT`: the payload of the first chunk with the tag when it is text, EncodingError when it is not,
and the soft not-found, with `STATUS` 0 and `HIT` 0, when there is none (R177, R194). -/
def Obligations.ExtractGivesTheFirstPayload : Prop :=
  (∀ (s : State) (src key : List Byte) (before after : List Chunk) (c : Chunk),
    contParse sigBytes Config.TAG_CHECK_ON_PARSE src = .ok (before ++ c :: after) →
    (∀ d ∈ before, be32 d.tag ≠ key) → be32 c.tag = key →
      ∃ t : State,
        (utf8Valid c.pay = true → extract src key s = .text c.pay t) ∧
        (utf8Valid c.pay = false →
          extract src key s = .failed t ∧ t.status = 5 ∧ t.etag = c.tag)) ∧
  (∀ (s : State) (src key : List Byte) (q : List Chunk),
    contParse sigBytes Config.TAG_CHECK_ON_PARSE src = .ok q → key.length ≤ 255 →
    (∀ d ∈ q, be32 d.tag ≠ key) →
      ∃ t : State, extract src key s = .notFound t ∧ t.status = 0 ∧ t.fl.hit = false)

/-- What `EMBED` wrote under a tag that the source did not use, `EXTRACT` gives back (R176, R177). -/
def Obligations.ExtractUndoesEmbed : Prop :=
  ∀ (s s' : State) (src text message : List Byte) (q : List Chunk),
    contParse sigBytes Config.TAG_CHECK_ON_PARSE src = .ok q →
    (∀ d ∈ q, be32 d.tag ≠ text) → fourLetters text →
    message.length ≤ 4294967295 → utf8Valid message = true →
      ∃ (out : List Byte) (t t' : State),
        embed src text message s = .output out t ∧ extract out text s' = .text message t'

/-- `DELETE`: the output is the source without the first frame of that tag; with no such frame it is
NotFound and there is no output (R178). -/
def Obligations.DeleteCutsTheFirstFrame : Prop :=
  (∀ (s : State) (src key : List Byte) (before after : List Chunk) (c : Chunk),
    contParse sigBytes Config.TAG_CHECK_ON_PARSE src = .ok (before ++ c :: after) →
    (∀ d ∈ before, be32 d.tag ≠ key) → be32 c.tag = key →
      ∃ t : State, delete src key s = .output (contSer sigBytes (before ++ after)) t ∧
        t.cseq = before ++ after ∧ t.w = { v := true, tag := c.tag, pay := c.pay, crc := c.crc }) ∧
  (∀ (s : State) (src key : List Byte) (q : List Chunk),
    contParse sigBytes Config.TAG_CHECK_ON_PARSE src = .ok q → key.length ≤ 255 →
    (∀ d ∈ q, be32 d.tag ≠ key) →
      ∃ t : State, delete src key s = .failed t ∧ t.status = 6 ∧ t.cseq = q)

/-- `RENDER`: the triples (tag, payload length, checksum) of every chunk, in sequence order (R179). -/
def Obligations.RenderListsEveryChunk : Prop :=
  ∀ (s : State) (src : List Byte) (q : List Chunk),
    contParse sigBytes Config.TAG_CHECK_ON_PARSE src = .ok q →
      ∃ t : State,
        render src s = .listing (q.map fun c => (c.tag.toNat, c.pay.length, c.crc.toNat)) t ∧
        t.cseq = q ∧ t.cur = src.length

/-- Each use-case ends with the failure of its parse, its later steps not issued: the container and `OBUF`
are as they were (R175, R176 to R179). -/
def Obligations.UseCasesStopAtAFailedParse : Prop :=
  ∀ (s : State) (src text message : List Byte) (f : StreamFail),
    contParse sigBytes Config.TAG_CHECK_ON_PARSE src = .error f →
      ∃ t : State,
        embed src text message s = .failed t ∧ extract src text s = .failed t ∧
        delete src text s = .failed t ∧ render src s = .failed t ∧
        t.status = f.kind.code ∧ t.eoff = f.offset ∧ t.cseq = s.cseq ∧ t.obuf = s.obuf
end

