-- ==== Sys2Proof/Laws/State.lean ====
section
/-! SUPPORT. One lemma per field for each shared update of the state, so that no proof unfolds one. -/

namespace Sys2Proof.Machine

variable (s : State) (k : FailKind) (off : Option Nat) (tag : Option Word) (c : Chunk)

/-! ### `State.succeeded` (R189) -/

@[simp] theorem succeeded_status : s.succeeded.status = 0 := rfl
@[simp] theorem succeeded_eval : s.succeeded.eval = 0 := rfl
@[simp] theorem succeeded_eoff : s.succeeded.eoff = 0 := rfl
@[simp] theorem succeeded_etag : s.succeeded.etag = 0 := rfl
@[simp] theorem succeeded_tag : s.succeeded.tag = s.tag := rfl
@[simp] theorem succeeded_w : s.succeeded.w = s.w := rfl
@[simp] theorem succeeded_crcr : s.succeeded.crcr = s.crcr := rfl
@[simp] theorem succeeded_crco : s.succeeded.crco = s.crco := rfl
@[simp] theorem succeeded_cur : s.succeeded.cur = s.cur := rfl
@[simp] theorem succeeded_idx : s.succeeded.idx = s.idx := rfl
@[simp] theorem succeeded_fl : s.succeeded.fl = s.fl := rfl
@[simp] theorem succeeded_ibuf : s.succeeded.ibuf = s.ibuf := rfl
@[simp] theorem succeeded_pbuf : s.succeeded.pbuf = s.pbuf := rfl
@[simp] theorem succeeded_obuf : s.succeeded.obuf = s.obuf := rfl
@[simp] theorem succeeded_cseq : s.succeeded.cseq = s.cseq := rfl
@[simp] theorem succeeded_inputs : s.succeeded.inputs = s.inputs := rfl
@[simp] theorem succeeded_delivered : s.succeeded.delivered = s.delivered := rfl

/-! ### `State.failed` (R190) -/

@[simp] theorem failed_status : (s.failed k off tag).status = k.code := rfl
@[simp] theorem failed_eval : (s.failed k off tag).eval = evalBits off.isSome tag.isSome := rfl
@[simp] theorem failed_eoff : (s.failed k off tag).eoff = off.getD 0 := rfl
@[simp] theorem failed_etag : (s.failed k off tag).etag = tag.getD 0 := rfl
@[simp] theorem failed_tag : (s.failed k off tag).tag = s.tag := rfl
@[simp] theorem failed_w : (s.failed k off tag).w = s.w := rfl
@[simp] theorem failed_crcr : (s.failed k off tag).crcr = s.crcr := rfl
@[simp] theorem failed_crco : (s.failed k off tag).crco = s.crco := rfl
@[simp] theorem failed_cur : (s.failed k off tag).cur = s.cur := rfl
@[simp] theorem failed_idx : (s.failed k off tag).idx = s.idx := rfl
@[simp] theorem failed_fl : (s.failed k off tag).fl = s.fl := rfl
@[simp] theorem failed_ibuf : (s.failed k off tag).ibuf = s.ibuf := rfl
@[simp] theorem failed_pbuf : (s.failed k off tag).pbuf = s.pbuf := rfl
@[simp] theorem failed_obuf : (s.failed k off tag).obuf = s.obuf := rfl
@[simp] theorem failed_cseq : (s.failed k off tag).cseq = s.cseq := rfl
@[simp] theorem failed_inputs : (s.failed k off tag).inputs = s.inputs := rfl
@[simp] theorem failed_delivered : (s.failed k off tag).delivered = s.delivered := rfl

/-! ### `W` (R22) -/

@[simp] theorem ofChunk_v : (WorkReg.ofChunk c).v = true := rfl
@[simp] theorem ofChunk_tag : (WorkReg.ofChunk c).tag = c.tag := rfl
@[simp] theorem ofChunk_pay : (WorkReg.ofChunk c).pay = c.pay := rfl
@[simp] theorem ofChunk_crc : (WorkReg.ofChunk c).crc = c.crc := rfl
@[simp] theorem chunk_ofChunk : (WorkReg.ofChunk c).chunk = c := rfl
@[simp] theorem chunk_tag (w : WorkReg) : w.chunk.tag = w.tag := rfl
@[simp] theorem chunk_pay (w : WorkReg) : w.chunk.pay = w.pay := rfl
@[simp] theorem chunk_crc (w : WorkReg) : w.chunk.crc = w.crc := rfl

/-- `W` is what it holds, when it holds a chunk. -/
theorem ofChunk_chunk {w : WorkReg} (h : w.v = true) : WorkReg.ofChunk w.chunk = w := by
  cases w
  simp only at h
  simp [WorkReg.ofChunk, WorkReg.chunk, h]

/-! ### `EVAL` and the codes (R29, R185) -/

@[simp] theorem evalBits_none_none : evalBits false false = 0 := rfl
@[simp] theorem evalBits_off : evalBits true false = 1 := rfl
@[simp] theorem evalBits_tag : evalBits false true = 2 := rfl
@[simp] theorem evalBits_both : evalBits true true = 3 := rfl

@[simp] theorem code_ne_zero : k.code ≠ 0#8 := by cases k <;> decide

/-- A failure leaves a code that is not 0 (R185). -/
theorem failed_status_ne_zero : (s.failed k off tag).status ≠ 0 := code_ne_zero k

theorem code_le_six : k.code.toNat ≤ 6 := by cases k <;> decide

/-- The codes tell the kinds apart. -/
theorem code_injective {j k : FailKind} (h : j.code = k.code) : j = k := by
  cases j <;> cases k <;> first | rfl | exact absurd h (by decide)

/-! ### The end of a command (R189, R190, R200) -/

/-- A command that reaches its end answers the state with success recorded, and nothing else. -/
@[simp] theorem done_eq_next {s t : State} : done s = .next t ↔ t = s.succeeded := by
  simp [done, eq_comm]

/-- A failure answers the state before the command with the failure recorded, and nothing else. -/
@[simp] theorem raise_eq_next {k : FailKind} {off : Option Nat} {tag : Option Word} {s t : State} :
    raise k off tag s = .next t ↔ t = s.failed k off tag := by
  simp [raise, eq_comm]

/-- A refusal answers no state. -/
@[simp] theorem refuse_ne_next {r : Refusal} {t : State} : refuse r ≠ .next t := by simp [refuse]

@[simp] theorem done_ne_refused {s : State} {r : Refusal} : done s ≠ .refused r := by simp [done]

@[simp] theorem raise_ne_refused {k : FailKind} {off : Option Nat} {tag : Option Word} {s : State}
    {r : Refusal} : raise k off tag s ≠ .refused r := by simp [raise]

end Sys2Proof.Machine
end

