-- ==== Sys2Proof/Laws/Ops.lean ====
section
/-! SUPPORT. Big-endian fields (R8), reads of a space (R50), and the canonical form of a space (R32). -/

namespace Sys2Proof.Machine

@[simp] theorem be32_length (v : Word) : (be32 v).length = 4 := rfl

/-- The number of four bytes has them as its bytes (R8). -/
theorem be32_word32 (b0 b1 b2 b3 : Byte) : be32 (word32 b0 b1 b2 b3) = [b0, b1, b2, b3] := by
  simp only [be32, word32, List.cons.injEq, and_true]
  refine ⟨?_, ?_, ?_, ?_⟩ <;>
    · ext i hi
      simp [BitVec.getElem_extractLsb', BitVec.getLsbD_or, BitVec.getLsbD_shiftLeft]
      interval_cases i <;> simp

/-- The number of four bytes as a sum (R8). -/
theorem word32_toNat (a b c d : Byte) :
    (word32 a b c d).toNat = a.toNat * 2 ^ 24 + b.toNat * 2 ^ 16 + c.toNat * 2 ^ 8 + d.toNat := by
  have ha := a.isLt
  have hb := b.isLt
  have hc := c.isLt
  have hd := d.isLt
  have e1 : a.toNat <<< 24 ||| b.toNat <<< 16 = a.toNat * 2 ^ 24 + b.toNat * 2 ^ 16 := by
    rw [← Nat.shiftLeft_add_eq_or_of_lt (by rw [Nat.shiftLeft_eq]; omega), Nat.shiftLeft_eq, Nat.shiftLeft_eq]
  have e2 : (a.toNat * 2 ^ 24 + b.toNat * 2 ^ 16) ||| c.toNat <<< 8 =
      a.toNat * 2 ^ 24 + b.toNat * 2 ^ 16 + c.toNat * 2 ^ 8 := by
    rw [show a.toNat * 2 ^ 24 + b.toNat * 2 ^ 16 = (a.toNat * 2 ^ 8 + b.toNat) <<< 16 by
        rw [Nat.shiftLeft_eq]; omega,
      ← Nat.shiftLeft_add_eq_or_of_lt (by rw [Nat.shiftLeft_eq]; omega), Nat.shiftLeft_eq, Nat.shiftLeft_eq]
  have e3 : (a.toNat * 2 ^ 24 + b.toNat * 2 ^ 16 + c.toNat * 2 ^ 8) ||| d.toNat =
      a.toNat * 2 ^ 24 + b.toNat * 2 ^ 16 + c.toNat * 2 ^ 8 + d.toNat := by
    rw [show a.toNat * 2 ^ 24 + b.toNat * 2 ^ 16 + c.toNat * 2 ^ 8 =
          (a.toNat * 2 ^ 16 + b.toNat * 2 ^ 8 + c.toNat) <<< 8 by rw [Nat.shiftLeft_eq]; omega,
      ← Nat.shiftLeft_add_eq_or_of_lt hd]
  have m : ∀ (x : Byte) (k : Nat), k ≤ 24 → ((x.setWidth 32) <<< k).toNat = x.toNat <<< k := by
    intro x k hk
    have hx := x.isLt
    rw [BitVec.toNat_shiftLeft, BitVec.toNat_setWidth_of_le (by omega), Nat.mod_eq_of_lt]
    rw [Nat.shiftLeft_eq]
    calc x.toNat * 2 ^ k < 2 ^ 8 * 2 ^ k := Nat.mul_lt_mul_of_pos_right hx (Nat.two_pow_pos k)
      _ = 2 ^ (8 + k) := (Nat.pow_add ..).symm
      _ ≤ 2 ^ 32 := Nat.pow_le_pow_right (by omega) (by omega)
  rw [word32, BitVec.toNat_or, BitVec.toNat_or, BitVec.toNat_or, m a 24 (by omega), m b 16 (by omega),
    m c 8 (by omega), BitVec.toNat_setWidth_of_le (by omega), e1, e2, e3]

/-- The bytes of a number make the number (R8). -/
theorem word32_bytes (v : Word) :
    word32 (v.extractLsb' 24 8) (v.extractLsb' 16 8) (v.extractLsb' 8 8) (v.extractLsb' 0 8) = v := by
  ext i hi
  simp [word32, BitVec.getElem_or, BitVec.getElem_shiftLeft, BitVec.getElem_setWidth]
  interval_cases i <;> simp

/-- Two numbers with the same bytes are equal (R8). -/
theorem be32_injective {a b : Word} (h : be32 a = be32 b) : a = b := by
  simp only [be32, List.cons.injEq, and_true] at h
  obtain ⟨h3, h2, h1, h0⟩ := h
  rw [← word32_bytes a, ← word32_bytes b, h3, h2, h1, h0]

@[simp] theorem be32_inj {a b : Word} : be32 a = be32 b ↔ a = b := ⟨be32_injective, congrArg be32⟩

/-- A list of four bytes is the bytes of their number. -/
theorem exists_be32 {l : List Byte} (h : l.length = 4) : ∃ v : Word, be32 v = l := by
  match l, h with
  | [b0, b1, b2, b3], _ => exact ⟨word32 b0 b1 b2 b3, be32_word32 b0 b1 b2 b3⟩

/-- Reading the field at the front of a sequence. -/
@[simp] theorem rd32_be32_append (v : Word) (l : List Byte) : rd32 (be32 v ++ l) 0 = v := by
  simpa [rd32, be32] using word32_bytes v

@[simp] theorem rd32_be32 (v : Word) : rd32 (be32 v) 0 = v := by
  simpa using rd32_be32_append v []

/-- A field behind a prefix. -/
theorem rd32_append (a b : List Byte) (i : Nat) : rd32 (a ++ b) (a.length + i) = rd32 b i := by
  simp [rd32, List.getD_eq_getElem?_getD, List.getElem?_append_right, Nat.add_assoc]

/-- A field that lies inside the first part of a sequence (R8). -/
theorem rd32_append_left (a b : List Byte) (i : Nat) (h : i + 4 ≤ a.length) :
    rd32 (a ++ b) i = rd32 a i := by
  unfold rd32
  congr 1 <;> (rw [List.getD_append]; omega)

/-- The field at an offset is the four bytes there. -/
theorem be32_rd32 (s : List Byte) (i : Nat) (h : i + 4 ≤ s.length) :
    be32 (rd32 s i) = slice s i (i + 4) := by
  have h0 : s.drop i = s[i] :: s[i+1] :: s[i+2] :: s[i+3] :: s.drop (i + 4) := by
    rw [List.drop_eq_getElem_cons (by omega), List.drop_eq_getElem_cons (by omega),
      List.drop_eq_getElem_cons (by omega), List.drop_eq_getElem_cons (by omega)]
  have hl : i + 4 - i = 4 := by omega
  rw [slice, h0, hl]
  have g : ∀ k, (hk : k < s.length) → s.getD k 0 = s[k] := fun k hk => by
    simp [List.getD_eq_getElem?_getD, hk]
  rw [rd32, be32_word32, g i (by omega), g (i+1) (by omega), g (i+2) (by omega), g (i+3) (by omega)]
  rfl

/-- A read that is defined gives the piece of the sequence (R50). -/
theorem memRead_eq_some {s p : List Byte} {a n : Nat} :
    memRead s a n = some p ↔ a + n ≤ s.length ∧ p = slice s a (a + n) := by
  unfold memRead
  split <;> simp_all [eq_comm]

theorem slice_append (a p b : List Byte) : slice (a ++ p ++ b) a.length (a.length + p.length) = p := by
  simp [slice]

/-- What the cursor names, when it stands behind a prefix of `IBUF` (R141). -/
theorem fromCursor_append {s : State} {before rest : List Byte} (h : s.ibuf = before ++ rest)
    (hc : s.cur = before.length) : fromCursor s = rest := by
  simp [fromCursor, h, hc, slice]

@[simp] theorem sigBytesOf_length (sig : BitVec 64) : (sigBytesOf sig).length = 8 := rfl

@[simp] theorem sigBytes_length : sigBytes.length = 8 := rfl

/-! ### Spaces as (address, byte) pairs (R32; log entry 9) -/

theorem wfFrom_cellsFrom (a : Nat) (bs : List Byte) : Memory.wfFrom a (cellsFrom a bs) = true := by
  induction bs generalizing a with
  | nil => rfl
  | cons b bs ih => simp [cellsFrom, Memory.wfFrom, ih]

/-- Every space, whatever operation wrote it, has the canonical form. -/
theorem cells_wf (bs : List Byte) : Memory.wf (cells bs) = true := wfFrom_cellsFrom 0 bs

theorem cellsFrom_bytes (a : Nat) (bs : List Byte) : (cellsFrom a bs).map Prod.snd = bs := by
  induction bs generalizing a with
  | nil => rfl
  | cons b bs ih => simp [cellsFrom, ih]

/-- Equal spaces are equal lists of pairs. -/
theorem cells_injective {a b : List Byte} (h : cells a = cells b) : a = b := by
  rw [← cellsFrom_bytes 0 a, ← cellsFrom_bytes 0 b]
  exact congrArg (List.map Prod.snd) h

/-- The byte at an address is the byte of the pair at that address. -/
theorem mem_cellsFrom {a k : Nat} {b : Byte} {bs : List Byte} :
    (k, b) ∈ cellsFrom a bs ↔ a ≤ k ∧ bs[k - a]? = some b := by
  induction bs generalizing a with
  | nil => simp [cellsFrom]
  | cons c bs ih =>
    simp only [cellsFrom, List.mem_cons, Prod.mk.injEq, ih]
    constructor
    · rintro (⟨rfl, rfl⟩ | ⟨h, hb⟩)
      · simp
      · refine ⟨by omega, ?_⟩
        rw [show k - a = (k - (a + 1)) + 1 by omega]
        simpa using hb
    · rintro ⟨h, hb⟩
      rcases Nat.eq_or_lt_of_le h with rfl | h'
      · exact .inl ⟨rfl, by simpa [eq_comm] using hb⟩
      · refine .inr ⟨h', ?_⟩
        rw [show k - a = (k - (a + 1)) + 1 by omega] at hb
        simpa using hb

end Sys2Proof.Machine
end

