-- ==== Sys2Proof/Laws/Crc.lean ====
section
/-! SUPPORT. The checksum functions (R101 to R103): the shift step is linear over xor and injective, so a
byte that differs changes every later register and the checksum. -/

namespace Sys2Proof.Machine

/-- Xoring a mask into the register before a shift step is feeding its low bit and shifting the rest of it
along (R101). -/
theorem crcBit_xor (c z : Word) :
    crcBit (c ^^^ z) false = crcBit c (z.getLsbD 0) ^^^ (z >>> 1) := by
  unfold crcBit
  rw [BitVec.ushiftRight_xor_distrib, BitVec.getLsbD_xor]
  generalize c.getLsbD 0 = x
  generalize z.getLsbD 0 = y
  cases x <;> cases y <;> simp <;> ac_rfl

/-- Eight shift steps after xoring a mask in: its low eight bits are fed one by one, its other bits come
out shifted by eight. -/
theorem crcBit_iterate_xor (c z : Word) :
    (fun x => crcBit x false)^[8] (c ^^^ z) =
      (List.range 8).foldl (fun c i => crcBit c (z.getLsbD i)) c ^^^ (z >>> 8) := by
  have hs : ∀ a b : Nat, (z >>> a) >>> b = z >>> (a + b) := fun a b => by
    rw [BitVec.shiftRight_add]
  have hb : ∀ a : Nat, (z >>> a).getLsbD 0 = z.getLsbD a := fun a => by simp
  simp only [Function.iterate_succ, Function.iterate_zero, Function.comp, id]
  rw [crcBit_xor c z]
  repeat rw [crcBit_xor, hs, hb]
  rfl

theorem setWidth_ushiftRight_eight (b : Byte) : (b.setWidth 32) >>> 8 = 0#32 := by
  ext i hi
  simp

/-- The byte step is xoring the byte in and eight shift steps (R101). -/
theorem crcByte_eq_iterate (c : Word) (b : Byte) :
    crcByte c b = (fun x => crcBit x false)^[8] (c ^^^ b.setWidth 32) := by
  rw [crcBit_iterate_xor, setWidth_ushiftRight_eight, BitVec.xor_zero]
  rfl

theorem poly_bit31 : Config.CRC_POLY.getLsbD 31 = true := by decide

/-- The shift step loses nothing: bit 31 of the result tells which case it took. -/
theorem crcBit_injective {d : Bool} {a b : Word} (h : crcBit a d = crcBit b d) : a = b := by
  have top : ∀ x : Word, (crcBit x d).getLsbD 31 = (x.getLsbD 0 ^^ d) := fun x => by
    have hx : (x >>> 1).getLsbD 31 = false := by simp
    unfold crcBit
    generalize (x.getLsbD 0 ^^ d) = e
    cases e
    · exact hx
    · simp only [if_true, BitVec.getLsbD_xor, hx, poly_bit31]
      rfl
  have h0 : a.getLsbD 0 = b.getLsbD 0 := by
    have := (top a).symm.trans (h ▸ top b)
    simpa using this
  have hs : a >>> 1 = b >>> 1 := by
    unfold crcBit at h
    rw [h0] at h
    split at h
    · exact (BitVec.xor_left_inj _).mp h
    · exact h
  ext i hi
  rcases Nat.eq_zero_or_pos i with rfl | hp
  · simpa using h0
  · have := congrArg (fun v => v.getLsbD (i - 1)) hs
    simp only [BitVec.getLsbD_ushiftRight] at this
    rw [show 1 + (i - 1) = i by omega] at this
    simpa [hi] using this

theorem crcBit_iterate_injective (n : Nat) {a b : Word}
    (h : (fun x => crcBit x false)^[n] a = (fun x => crcBit x false)^[n] b) : a = b :=
  Function.Injective.iterate (fun _ _ h => crcBit_injective h) n h

/-- Registers that differ still differ after a byte. -/
theorem crcByte_injective_register {b : Byte} {c d : Word} (h : crcByte c b = crcByte d b) : c = d := by
  rw [crcByte_eq_iterate, crcByte_eq_iterate] at h
  exact BitVec.xor_left_inj _ |>.mp (crcBit_iterate_injective 8 h)

/-- Bytes that differ leave registers that differ. -/
theorem crcByte_injective_byte {c : Word} {a b : Byte} (h : crcByte c a = crcByte c b) : a = b := by
  rw [crcByte_eq_iterate, crcByte_eq_iterate] at h
  have h' := (BitVec.xor_right_inj _).mp (crcBit_iterate_injective 8 h)
  have := congrArg (fun v : Word => v.setWidth 8) h'
  simpa using this

@[simp] theorem crcRun_nil (c : Word) : crcRun c [] = c := rfl

@[simp] theorem crcRun_cons (c : Word) (b : Byte) (s : List Byte) :
    crcRun c (b :: s) = crcRun (crcByte c b) s := rfl

theorem crcRun_append (c : Word) (a b : List Byte) : crcRun c (a ++ b) = crcRun (crcRun c a) b :=
  List.foldl_append

/-- Registers that differ still differ after a message. -/
theorem crcRun_injective {c d : Word} (s : List Byte) (h : crcRun c s = crcRun d s) : c = d := by
  induction s generalizing c d with
  | nil => exact h
  | cons b s ih => exact crcByte_injective_register (ih h)

/-- Messages that differ in one byte have different checksums, wherever the byte stands. -/
theorem crc32_ne_of_byte_ne (before after : List Byte) {a b : Byte} (h : a ≠ b) :
    crc32 (before ++ a :: after) ≠ crc32 (before ++ b :: after) := by
  intro e
  have e' := BitVec.xor_left_inj _ |>.mp e
  rw [crcRun_append, crcRun_append, crcRun_cons, crcRun_cons] at e'
  exact h (crcByte_injective_byte (crcRun_injective after e'))

end Sys2Proof.Machine
end

