-- ==== Sys2Proof/Laws/Chunk.lean ====
section
/-! SUPPORT. The framer and the deframer (R137, R139): what `chunkParse` answers on each shape of buffer,
and what a buffer looks like that it accepts. -/

namespace Sys2Proof.Machine

theorem isLetter_iff (b : Byte) :
    isLetter b = true ↔
      (0x41 ≤ b.toNat ∧ b.toNat ≤ 0x5A) ∨ (0x61 ≤ b.toNat ∧ b.toNat ≤ 0x7A) := by
  simp [isLetter]

/-- `TagValid` says that the four bytes are letters (R116). -/
theorem tagValid_iff (t : Word) : tagValid t = true ↔ fourLetters (be32 t) := by
  simp only [tagValid, fourLetters, List.all_eq_true, isLetter_iff, be32_length, true_and]

theorem tagValid_eq_false_iff (t : Word) : tagValid t = false ↔ ¬ fourLetters (be32 t) := by
  rw [← tagValid_iff, Bool.not_eq_true]

theorem chunkSer_eq_frameBytes (c : Chunk) : chunkSer c = frameBytes c.tag c.pay c.crc := rfl

@[simp] theorem frameBytes_length (t : Word) (p : List Byte) (k : Word) :
    (frameBytes t p k).length = 12 + p.length := by
  simp [frameBytes]
  omega

@[simp] theorem chunkSer_length (c : Chunk) : (chunkSer c).length = 12 + c.pay.length := by
  simp [chunkSer_eq_frameBytes]

/-- The length field of a payload that is not too long is its length (R73). -/
theorem lengthField_toNat {p : List Byte} (h : p.length ≤ 4294967295) :
    (BitVec.ofNat 32 p.length).toNat = p.length := by
  rw [BitVec.toNat_ofNat]
  exact Nat.mod_eq_of_lt (by omega)

/-- A buffer of 8 bytes or more is a length field, a tag field and the rest (R71). -/
theorem exists_header {buf : List Byte} (h : 8 ≤ buf.length) :
    ∃ (len t : Word) (rest : List Byte), buf = be32 len ++ be32 t ++ rest := by
  obtain ⟨len, hl⟩ := exists_be32 (l := buf.take 4) (by simp; omega)
  obtain ⟨t, ht⟩ := exists_be32 (l := (buf.drop 4).take 4) (by simp; omega)
  refine ⟨len, t, (buf.drop 4).drop 4, ?_⟩
  rw [hl, ht, List.append_assoc, List.take_append_drop, List.take_append_drop]

theorem rd32_tag (len t : Word) (rest : List Byte) : rd32 (be32 len ++ be32 t ++ rest) 4 = t := by
  rw [List.append_assoc]
  simpa using rd32_append (be32 len) (be32 t ++ rest) 0

theorem rd32_length (len t : Word) (rest : List Byte) : rd32 (be32 len ++ be32 t ++ rest) 0 = len := by
  simp

/-- Fewer than 8 bytes: TruncatedInput that names no tag (R139 (a)). -/
theorem chunkParse_short {check : Bool} {buf : List Byte} (h : buf.length < 8) :
    chunkParse check buf = .error { kind := .truncatedInput, tag := none } := by
  simp [chunkParse, h]

/-- The frame is longer than what is left: TruncatedInput that names the tag (R139). -/
theorem chunkParse_truncated {check : Bool} {len t : Word} {rest : List Byte}
    (h : rest.length < len.toNat + 4) :
    chunkParse check (be32 len ++ be32 t ++ rest) =
      .error { kind := .truncatedInput, tag := some t } := by
  have h8 : ¬ (be32 len ++ be32 t ++ rest).length < 8 := by simp; omega
  have h12 : (be32 len ++ be32 t ++ rest).length < 12 + len.toNat := by simp; omega
  simp only [chunkParse, rd32_tag, rd32_length, if_neg h8, if_pos h12]

/-- A whole frame at the front of the buffer: the checksum decides, then the tag (R139, R191). -/
theorem chunkParse_frame (check : Bool) {t k : Word} {p : List Byte} (after : List Byte)
    (hp : p.length ≤ 4294967295) :
    chunkParse check (frameBytes t p k ++ after) =
      if chunkCrc t p ≠ k then .error { kind := .checksumMismatch, tag := some t }
      else if !tagValid t && check then .error { kind := .formatError, tag := some t }
      else .ok ({ tag := t, pay := p, crc := k }, 12 + p.length) := by
  have hb : frameBytes t p k ++ after =
      be32 (BitVec.ofNat 32 p.length) ++ be32 t ++ (p ++ be32 k ++ after) := by
    simp [frameBytes]
  have h8 : ¬ (frameBytes t p k ++ after).length < 8 := by simp; omega
  have hl : rd32 (frameBytes t p k ++ after) 0 = BitVec.ofNat 32 p.length := by
    rw [hb, rd32_length]
  have ht : rd32 (frameBytes t p k ++ after) 4 = t := by rw [hb, rd32_tag]
  have h12 : ¬ (frameBytes t p k ++ after).length < 12 + p.length := by simp
  have hh : (be32 (BitVec.ofNat 32 p.length) ++ be32 t).length = 8 := rfl
  have hs : slice (frameBytes t p k ++ after) 8 (8 + p.length) = p := by
    have := slice_append (be32 (BitVec.ofNat 32 p.length) ++ be32 t) p (be32 k ++ after)
    rw [hh] at this
    rw [frameBytes]
    simpa only [List.append_assoc] using this
  have hk : rd32 (frameBytes t p k ++ after) (8 + p.length) = k := by
    have := rd32_append (be32 (BitVec.ofNat 32 p.length) ++ be32 t ++ p) (be32 k ++ after) 0
    rw [List.length_append, hh, rd32_be32_append, Nat.add_zero] at this
    rw [frameBytes]
    simpa only [List.append_assoc] using this
  simp only [chunkParse, hl, ht, lengthField_toNat hp, if_neg h8, if_neg h12, hs, hk]

/-- What an accepted buffer looks like: the chunk's frame in front, with the right checksum (R139, R146). -/
theorem chunkParse_ok {check : Bool} {buf : List Byte} {c : Chunk} {size : Nat}
    (h : chunkParse check buf = .ok (c, size)) :
    ∃ after, buf = chunkSer c ++ after ∧ size = 12 + c.pay.length ∧ chunkOk c ∧
      (check = true → tagValid c.tag = true) := by
  by_cases h8 : buf.length < 8
  · rw [chunkParse_short h8] at h
    cases h
  obtain ⟨len, t, rest, rfl⟩ := exists_header (Nat.le_of_not_lt h8)
  by_cases h12 : rest.length < len.toNat + 4
  · rw [chunkParse_truncated h12] at h
    cases h
  have hlen : len.toNat < 4294967296 := len.isLt
  obtain ⟨k, hk⟩ := exists_be32 (l := (rest.drop len.toNat).take 4) (by simp; omega)
  have hp : (rest.take len.toNat).length = len.toNat := by simp; omega
  have hb : be32 len ++ be32 t ++ rest =
      frameBytes t (rest.take len.toNat) k ++ (rest.drop len.toNat).drop 4 := by
    simp only [frameBytes, hp, hk, BitVec.ofNat_toNat, BitVec.setWidth_eq, List.append_assoc]
    rw [List.take_append_drop, List.take_append_drop]
  rw [hb, chunkParse_frame check _ (by omega)] at h
  split at h
  · cases h
  split at h
  · cases h
  rename_i hcrc htag
  cases h
  refine ⟨(rest.drop len.toNat).drop 4, hb, rfl, ⟨(by simpa [chunkCrc, tagBytes] using hcrc : _ = _).symm, ?_⟩, ?_⟩
  · simp only
    omega
  · intro hc
    simpa [hc] using htag

/-- The kinds the deframer can end with; FormatError only when it checks the tag (R139). -/
theorem chunkParse_error_kind {check : Bool} {buf : List Byte} {f : FrameFail}
    (h : chunkParse check buf = .error f) :
    f.kind = .truncatedInput ∨ f.kind = .checksumMismatch ∨
      (f.kind = .formatError ∧ check = true) := by
  unfold chunkParse at h
  simp only at h
  split at h
  · cases h
    exact .inl rfl
  split at h
  · cases h
    exact .inl rfl
  split at h
  · cases h
    exact .inr (.inl rfl)
  split at h
  · rename_i hc
    cases h
    exact .inr (.inr ⟨rfl, by simp_all⟩)
  · cases h

end Sys2Proof.Machine
end

