-- ==== Sys2Proof/Laws/Container.lean ====
section
/-! SUPPORT. The container deframer (R157), first match (R159) and removal (R165). -/

namespace Sys2Proof.Machine

/-- The frames of a chunk sequence, back to back (R156). -/
abbrev framesOf (q : List Chunk) : List Byte := (q.map chunkSer).flatten

@[simp] theorem framesOf_cons (c : Chunk) (q : List Chunk) :
    framesOf (c :: q) = chunkSer c ++ framesOf q := rfl

theorem contSer_append (sig : List Byte) (q r : List Chunk) :
    contSer sig (q ++ r) = contSer sig q ++ framesOf r := by
  simp [contSer]

/-- The deframer takes a good frame from the front (R139, R146). -/
theorem chunkParse_good {check : Bool} {c : Chunk} (after : List Byte) (hc : chunkOk c)
    (ht : check = true → tagValid c.tag = true) :
    chunkParse check (chunkSer c ++ after) = .ok (c, 12 + c.pay.length) := by
  have h1 : ¬ chunkCrc c.tag c.pay ≠ c.crc := fun h => h hc.1.symm
  have h2 : ¬ (!tagValid c.tag && check) = true := by
    cases check
    · simp
    · simp [ht rfl]
  rw [chunkSer_eq_frameBytes, chunkParse_frame check after hc.2, if_neg h1, if_neg h2]

/-- One turn of the loop over a good frame (R157). -/
theorem contFrames_good {check : Bool} {fuel cur : Nat} {c : Chunk} (after : List Byte) (hc : chunkOk c)
    (ht : check = true → tagValid c.tag = true) :
    contFrames check (fuel + 1) cur (chunkSer c ++ after) =
      match contFrames check fuel (cur + (12 + c.pay.length)) after with
      | .error e => .error e
      | .ok q => .ok (c :: q) := by
  have he : (chunkSer c ++ after).isEmpty = false := by
    cases h : chunkSer c ++ after with
    | nil =>
      have := congrArg List.length h
      simp at this
    | cons _ _ => rfl
  have hd : (chunkSer c ++ after).drop (12 + c.pay.length) = after := by
    simp [← chunkSer_length]
  cases h : contFrames check fuel (cur + (12 + c.pay.length)) after <;>
    simp only [contFrames, he, Bool.false_eq_true, if_false, chunkParse_good after hc ht, hd, h]

/-- Every frame takes at least one unit of fuel's bytes. -/
theorem length_le_framesOf_length (q : List Chunk) : q.length ≤ (framesOf q).length := by
  induction q with
  | nil => simp
  | cons c q ih =>
    rw [framesOf_cons, List.length_append, chunkSer_length, List.length_cons]
    omega

/-- A run of good frames parses to its chunks (R157, R167). -/
theorem contFrames_framesOf {check : Bool} {q : List Chunk} {fuel cur : Nat}
    (hq : ∀ c ∈ q, chunkOk c) (ht : check = true → ∀ c ∈ q, tagValid c.tag = true)
    (hf : q.length ≤ fuel) : contFrames check fuel cur (framesOf q) = .ok q := by
  induction q generalizing fuel cur with
  | nil => cases fuel <;> rfl
  | cons c q ih =>
    obtain ⟨f, rfl⟩ : ∃ f, fuel = f + 1 := ⟨fuel - 1, by simp at hf; omega⟩
    rw [framesOf_cons, contFrames_good _ (hq c (by simp)) (fun h => ht h c (by simp)),
      ih (fun d hd => hq d (by simp [hd])) (fun h d hd => ht h d (by simp [hd])) (by simpa using hf)]

/-- The first frame that fails ends the parse, at the offset where it starts (R157, R191). -/
theorem contFrames_bad {check : Bool} {q : List Chunk} {fuel cur : Nat} {bad : List Byte} {f : FrameFail}
    (hq : ∀ c ∈ q, chunkOk c) (ht : check = true → ∀ c ∈ q, tagValid c.tag = true)
    (hb : bad ≠ []) (hp : chunkParse check bad = .error f) (hf : q.length < fuel) :
    contFrames check fuel cur (framesOf q ++ bad) =
      .error { kind := f.kind, offset := cur + (framesOf q).length, tag := f.tag } := by
  induction q generalizing fuel cur with
  | nil =>
    obtain ⟨g, rfl⟩ : ∃ g, fuel = g + 1 := ⟨fuel - 1, by simp at hf; omega⟩
    have he : bad.isEmpty = false := by simpa using hb
    change contFrames check (g + 1) cur bad = _
    simp [contFrames, he, hp]
  | cons c q ih =>
    obtain ⟨g, rfl⟩ : ∃ g, fuel = g + 1 := ⟨fuel - 1, by simp at hf; omega⟩
    rw [framesOf_cons, List.append_assoc, contFrames_good _ (hq c (by simp)) (fun h => ht h c (by simp)),
      ih (fun d hd => hq d (by simp [hd])) (fun h d hd => ht h d (by simp [hd])) (by simpa using hf)]
    simp [Nat.add_assoc]

/-- What the loop accepts is the frames of its result (R157, R167). -/
theorem contFrames_ok {check : Bool} {fuel cur : Nat} {rest : List Byte} {q : List Chunk}
    (hf : rest.length ≤ fuel) (h : contFrames check fuel cur rest = .ok q) :
    rest = framesOf q ∧ (∀ c ∈ q, chunkOk c) ∧ (check = true → ∀ c ∈ q, tagValid c.tag = true) := by
  induction fuel generalizing cur rest q with
  | zero =>
    cases h
    exact ⟨List.length_eq_zero_iff.mp (by omega), by simp, by simp⟩
  | succ fuel ih =>
    rw [contFrames] at h
    split at h
    · rename_i he
      cases h
      exact ⟨List.isEmpty_iff.mp he, by simp, by simp⟩
    split at h
    · cases h
    rename_i c size hp
    obtain ⟨after, rfl, rfl, hc, ht⟩ := chunkParse_ok hp
    split at h
    · cases h
    rename_i q' hq'
    cases h
    have hd : (chunkSer c ++ after).drop (12 + c.pay.length) = after := by simp [← chunkSer_length]
    rw [hd] at hq'
    obtain ⟨rfl, h1, h2⟩ := ih (by simp at hf; omega) hq'
    refine ⟨rfl, ?_, ?_⟩
    · rintro d (_ | ⟨_, hd⟩)
      · exact hc
      · exact h1 d hd
    · rintro hk d (_ | ⟨_, hd⟩)
      · exact ht hk
      · exact h2 hk d hd

/-- What a failing loop says: behind a run of good frames stands the first that fails, and the failure is
the deframer's for it, at the offset where it starts (R157, R191). -/
theorem contFrames_error {check : Bool} {fuel cur : Nat} {rest : List Byte} {f : StreamFail}
    (hf : rest.length ≤ fuel) (h : contFrames check fuel cur rest = .error f) :
    ∃ q bad g, rest = framesOf q ++ bad ∧ (∀ c ∈ q, chunkOk c) ∧
      (check = true → ∀ c ∈ q, tagValid c.tag = true) ∧ bad ≠ [] ∧ chunkParse check bad = .error g ∧
      f = { kind := g.kind, offset := cur + (framesOf q).length, tag := g.tag } := by
  induction fuel generalizing cur rest f with
  | zero => cases h
  | succ fuel ih =>
    rw [contFrames] at h
    split at h
    · cases h
    rename_i he
    split at h
    · rename_i g hg
      cases h
      exact ⟨[], rest, g, rfl, by simp, by simp, by simpa using he, hg, rfl⟩
    rename_i c size hp
    obtain ⟨after, rfl, rfl, hc, ht⟩ := chunkParse_ok hp
    have hd : (chunkSer c ++ after).drop (12 + c.pay.length) = after := by simp [← chunkSer_length]
    rw [hd] at h
    split at h
    · rename_i e hx
      cases h
      obtain ⟨q, bad, g, rfl, h1, h2, hb, hg, rfl⟩ := ih (by simp at hf; omega) hx
      refine ⟨c :: q, bad, g, by simp, ?_, ?_, hb, hg, by simp [Nat.add_assoc]⟩
      · rintro d (_ | ⟨_, hd⟩)
        · exact hc
        · exact h1 d hd
      · rintro hk d (_ | ⟨_, hd⟩)
        · exact ht hk
        · exact h2 hk d hd
    · cases h

/-- A stream with the right signature is parsed from byte 8 on (R157). -/
theorem contParse_sig {sig : List Byte} {check : Bool} (rest : List Byte) (hs : sig.length = 8) :
    contParse sig check (sig ++ rest) = contFrames check rest.length 8 rest := by
  have h8 : ¬ (sig ++ rest).length < 8 := by simp; omega
  have ht : (sig ++ rest).take 8 = sig := by rw [← hs, List.take_left']; rfl
  have hd : (sig ++ rest).drop 8 = rest := by rw [← hs, List.drop_left']; rfl
  simp only [contParse, if_neg h8, ht, hd, ne_eq, not_true_eq_false, if_false]

/-- What the stream parse accepts is the signature and the frames of its result (R157, R167). -/
theorem contParse_ok {sig : List Byte} {check : Bool} {buf : List Byte} {q : List Chunk}
    (h : contParse sig check buf = .ok q) :
    buf = contSer sig q ∧ (∀ c ∈ q, chunkOk c) ∧
      (check = true → ∀ c ∈ q, tagValid c.tag = true) := by
  unfold contParse at h
  split at h
  · cases h
  split at h
  · cases h
  rename_i _ hs
  obtain ⟨h1, h2, h3⟩ := contFrames_ok (Nat.le_refl _) h
  refine ⟨?_, h2, h3⟩
  change buf = sig ++ framesOf q
  rw [← h1, ← not_not.mp hs, List.take_append_drop]

/-- The kinds the stream parse can end with (R157). -/
theorem contParse_error_kind {sig : List Byte} {check : Bool} {buf : List Byte} {f : StreamFail}
    (h : contParse sig check buf = .error f) :
    f.kind = .signatureMismatch ∨ f.kind = .truncatedInput ∨ f.kind = .checksumMismatch ∨
      (f.kind = .formatError ∧ check = true) := by
  unfold contParse at h
  split at h
  · cases h
    exact .inr (.inl rfl)
  split at h
  · cases h
    exact .inl rfl
  · obtain ⟨_, _, _, _, _, _, _, hg, rfl⟩ := contFrames_error (Nat.le_refl _) h
    exact .inr (chunkParse_error_kind hg)

/-! ### First match (R159) -/

theorem keyMatches_iff {c : Chunk} {key : List Byte} : keyMatches c key = true ↔ be32 c.tag = key := by
  rw [keyMatches, beq_iff_eq, tagBytes]
  exact eq_comm

/-- The first match, when there is one (R159). -/
theorem findFirst_hit {before after : List Chunk} {c : Chunk} {key : List Byte}
    (hb : ∀ d ∈ before, be32 d.tag ≠ key) (hc : be32 c.tag = key) :
    findFirst (before ++ c :: after) key = some (before.length, c) := by
  induction before with
  | nil => simp [findFirst, keyMatches_iff, hc]
  | cons d before ih =>
    have hd : keyMatches d key = false := by
      rw [← Bool.not_eq_true, keyMatches_iff]
      exact hb d (by simp)
    simp [findFirst, hd, ih fun e he => hb e (by simp [he])]

/-- No match (R159). -/
theorem findFirst_none {q : List Chunk} {key : List Byte} :
    findFirst q key = none ↔ ∀ d ∈ q, be32 d.tag ≠ key := by
  induction q with
  | nil => simp [findFirst]
  | cons c q ih =>
    by_cases hc : keyMatches c key = true
    · simp [findFirst, hc, keyMatches_iff.mp hc]
    · have hc' : be32 c.tag ≠ key := fun h => hc (keyMatches_iff.mpr h)
      rw [findFirst, if_neg hc]
      cases h : findFirst q key with
      | none => simpa [hc'] using ih.mp h
      | some r =>
        have : ¬ ∀ d ∈ q, be32 d.tag ≠ key := fun h' => by simp [ih.mpr h'] at h
        simpa [hc'] using this

/-- What a found index and chunk are (R159). -/
theorem findFirst_some {q : List Chunk} {key : List Byte} {i : Nat} {c : Chunk}
    (h : findFirst q key = some (i, c)) :
    ∃ before after, q = before ++ c :: after ∧ i = before.length ∧ be32 c.tag = key ∧
      ∀ d ∈ before, be32 d.tag ≠ key := by
  induction q generalizing i c with
  | nil => cases h
  | cons d q ih =>
    rw [findFirst] at h
    split at h
    · rename_i hd
      cases h
      exact ⟨[], q, rfl, rfl, keyMatches_iff.mp hd, by simp⟩
    · rename_i hd
      split at h
      · rename_i j e he
        cases h
        obtain ⟨before, after, rfl, rfl, he', hb⟩ := ih he
        refine ⟨d :: before, after, rfl, rfl, he', ?_⟩
        rintro x (_ | ⟨_, hx⟩)
        · exact fun h' => hd (keyMatches_iff.mpr h')
        · exact hb x hx
      · cases h

/-- Removal takes out exactly the entry at the index (R165). -/
theorem removeAt_append (before after : List Chunk) (c : Chunk) :
    removeAt (before ++ c :: after) before.length = before ++ after := by
  simp [removeAt, List.drop_append]

end Sys2Proof.Machine
end

