-- ==== Sys2Proof/Laws/Exec.lean ====
section
/-! SUPPORT. What a command can answer and what a step can do, each said once: an inversion lemma per
meaning that has cases, the shape of `exec`, and the cases of `step`. -/

namespace Sys2Proof.Machine

variable {s t : State}

/-- `TAG.LDT` (R120). -/
theorem execTagLdt_next {text : List Byte} (h : execTagLdt text s = .next t) :
    (text.length = 4 ∧ text.all isLetter = true ∧ t = State.succeeded { s with tag := rd32 text 0 }) ∨
      (¬ (text.length = 4 ∧ text.all isLetter = true) ∧ t = s.failed .formatError none none) := by
  unfold execTagLdt at h
  split at h
  · exact .inr ⟨fun h' => by simp_all, raise_eq_next.mp h⟩
  split at h
  · exact .inr ⟨fun h' => by simp_all, raise_eq_next.mp h⟩
  · exact .inl ⟨by simp_all, by simp_all, done_eq_next.mp h⟩

/-- `CH.NEW` (R140). -/
theorem execChNew_next (h : execChNew s = .next t) :
    (s.pbuf.length ≤ 4294967295 ∧ t = State.succeeded { s with
        w := { v := true, tag := s.tag, pay := s.pbuf, crc := chunkCrc s.tag s.pbuf } }) ∨
      (4294967295 < s.pbuf.length ∧ t = s.failed .formatError none (some s.tag)) := by
  unfold execChNew chunkNew at h
  by_cases hp : s.pbuf.length > Config.MAX_PAYLOAD
  · rw [if_pos hp] at h
    exact .inr ⟨hp, raise_eq_next.mp h⟩
  · rw [if_neg hp] at h
    exact .inl ⟨Nat.le_of_not_lt hp, done_eq_next.mp h⟩

/-- `CH.PARSE` (R141). -/
theorem execChParse_next (h : execChParse s = .next t) :
    (∃ c size, chunkParse tagCheckOnParse (fromCursor s) = .ok (c, size) ∧
        t = State.succeeded { s with w := WorkReg.ofChunk c, cur := s.cur + size }) ∨
      (∃ f, chunkParse tagCheckOnParse (fromCursor s) = .error f ∧
        t = s.failed f.kind (some s.cur) f.tag) := by
  unfold execChParse at h
  split at h
  · rename_i f hf
    exact .inr ⟨f, hf, raise_eq_next.mp h⟩
  · rename_i c size hc
    exact .inl ⟨c, size, hc, done_eq_next.mp h⟩

/-- `CH.SER` (R142). -/
theorem execChSer_next (h : execChSer s = .next t) :
    s.w.v = true ∧ t = State.succeeded { s with obuf := chunkSer s.w.chunk } := by
  unfold execChSer at h
  split at h
  · rename_i hv
    exact ⟨hv, done_eq_next.mp h⟩
  · exact absurd h refuse_ne_next

/-- `CH.TXT` (R143). -/
theorem execChTxt_next (h : execChTxt s = .next t) :
    s.w.v = true ∧
      ((utf8Valid s.w.pay = true ∧ t = State.succeeded { s with obuf := s.w.pay }) ∨
        (utf8Valid s.w.pay = false ∧ t = s.failed .encodingError none (some s.w.tag))) := by
  unfold execChTxt at h
  split at h
  · rename_i hv
    split at h
    · rename_i hu
      exact ⟨hv, .inl ⟨hu, done_eq_next.mp h⟩⟩
    · rename_i hu
      exact ⟨hv, .inr ⟨by simpa using hu, raise_eq_next.mp h⟩⟩
  · exact absurd h refuse_ne_next

/-- `CT.PARSE` (R161). -/
theorem execCtParse_next (h : execCtParse s = .next t) :
    (∃ q, contParse sigBytes tagCheckOnParse s.ibuf = .ok q ∧
        t = State.succeeded { s with cseq := q, cur := s.ibuf.length }) ∨
      (∃ f, contParse sigBytes tagCheckOnParse s.ibuf = .error f ∧
        t = s.failed f.kind (some f.offset) f.tag) := by
  unfold execCtParse at h
  split at h
  · rename_i f hf
    exact .inr ⟨f, hf, raise_eq_next.mp h⟩
  · rename_i q hq
    exact .inl ⟨q, hq, done_eq_next.mp h⟩

/-- `CT.APP` (R163). -/
theorem execCtApp_next (h : execCtApp s = .next t) :
    s.w.v = true ∧ t = State.succeeded { s with cseq := s.cseq ++ [s.w.chunk] } := by
  unfold execCtApp at h
  split at h
  · rename_i hv
    exact ⟨hv, done_eq_next.mp h⟩
  · exact absurd h refuse_ne_next

/-- `CT.FIND` (R164). -/
theorem execCtFind_next {key : List Byte} (h : execCtFind key s = .next t) :
    (∃ i c, findFirst s.cseq key = some (i, c) ∧
        t = State.succeeded { s.writeHit true with idx := i, w := WorkReg.ofChunk c }) ∨
      (findFirst s.cseq key = none ∧ t = State.succeeded (s.writeHit false)) := by
  unfold execCtFind at h
  split at h
  · rename_i hn
    exact .inr ⟨hn, done_eq_next.mp h⟩
  · rename_i i c hc
    exact .inl ⟨i, c, hc, done_eq_next.mp h⟩

/-- `CT.REM` (R165). -/
theorem execCtRem_next {key : List Byte} (h : execCtRem key s = .next t) :
    (∃ i c, findFirst s.cseq key = some (i, c) ∧
        t = State.succeeded
          { s with w := WorkReg.ofChunk c, idx := i, cseq := removeAt s.cseq i }) ∨
      (findFirst s.cseq key = none ∧ t = s.failed .notFound none (textTag key)) := by
  unfold execCtRem at h
  split at h
  · rename_i hn
    exact .inr ⟨hn, raise_eq_next.mp h⟩
  · rename_i i c hc
    exact .inl ⟨i, c, hc, done_eq_next.mp h⟩

/-- A command ends in one of three ways: it completes, it raises one failure from the state before it, or
it is one of the three chunk readers and `W` is empty (R189, R190, R149). -/
theorem exec_shape (i : Instr) (s : State) :
    (∃ u, exec i s = done u) ∨ (∃ k off tag, exec i s = raise k off tag s) ∨
      (exec i s = refuse .noChunk ∧ needsChunk i ∧ s.w.v = false) := by
  cases i with
  | tagLdt text =>
    simp only [exec, execTagLdt]
    split
    · exact .inr (.inl ⟨_, _, _, rfl⟩)
    · split
      · exact .inr (.inl ⟨_, _, _, rfl⟩)
      · exact .inl ⟨_, rfl⟩
  | chNew =>
    simp only [exec, execChNew]
    split
    · exact .inr (.inl ⟨_, _, _, rfl⟩)
    · exact .inl ⟨_, rfl⟩
  | chParse =>
    simp only [exec, execChParse]
    split
    · exact .inr (.inl ⟨_, _, _, rfl⟩)
    · exact .inl ⟨_, rfl⟩
  | chSer =>
    simp only [exec, execChSer]
    split
    · exact .inl ⟨_, rfl⟩
    · exact .inr (.inr ⟨rfl, .inl rfl, by simp_all⟩)
  | chTxt =>
    simp only [exec, execChTxt]
    split
    · split
      · exact .inl ⟨_, rfl⟩
      · exact .inr (.inl ⟨_, _, _, rfl⟩)
    · exact .inr (.inr ⟨rfl, .inr (.inl rfl), by simp_all⟩)
  | ctParse =>
    simp only [exec, execCtParse]
    split
    · exact .inr (.inl ⟨_, _, _, rfl⟩)
    · exact .inl ⟨_, rfl⟩
  | ctApp =>
    simp only [exec, execCtApp]
    split
    · exact .inl ⟨_, rfl⟩
    · exact .inr (.inr ⟨rfl, .inr (.inr rfl), by simp_all⟩)
  | ctFind key =>
    simp only [exec, execCtFind]
    split <;> exact .inl ⟨_, rfl⟩
  | ctRem key =>
    simp only [exec, execCtRem]
    split
    · exact .inr (.inl ⟨_, _, _, rfl⟩)
    · exact .inl ⟨_, rfl⟩
  | _ => exact .inl ⟨_, rfl⟩

/-- What a step can do: nothing, one command, one load, the cursor write, one read, or reset (R5). -/
theorem step_cases (h : step s = .next t) :
    (s.inputs = [] ∧ t = s) ∨
      ∃ e rest, s.inputs = e :: rest ∧
        ((∃ bs i, e = .command bs ∧ decode bs = .ok i ∧ exec i { s with inputs := rest } = .next t) ∨
          (∃ bs, t = { s with inputs := rest, ibuf := bs }) ∨
          (∃ bs, t = { s with inputs := rest, pbuf := bs }) ∨
          (∃ v : BitVec 64, t = { s with inputs := rest, cur := v.toNat }) ∨
          (∃ v, t = { s with inputs := rest, delivered := s.delivered ++ [v] }) ∨
          t = { State.reset with inputs := rest, delivered := s.delivered }) := by
  unfold step at h
  cases hi : s.inputs with
  | nil =>
    rw [hi] at h
    exact .inl ⟨rfl, by simpa [idle, eq_comm] using h⟩
  | cons e rest =>
    rw [hi] at h
    refine .inr ⟨e, rest, rfl, ?_⟩
    cases e with
    | command bs =>
      simp only [perform, issueCommand] at h
      split at h
      · rename_i i hd
        exact .inl ⟨bs, i, rfl, hd, h⟩
      · rename_i er _
        cases er <;> simp [rejectCommand] at h
    | access a =>
      cases a with
      | loadIbuf bs => exact .inr (.inl ⟨bs, by simpa [perform, hostAccess, hostLoadIbuf, eq_comm] using h⟩)
      | loadPbuf bs =>
        exact .inr (.inr (.inl ⟨bs, by simpa [perform, hostAccess, hostLoadPbuf, eq_comm] using h⟩))
      | setCur v =>
        exact .inr (.inr (.inr (.inl ⟨v, by simpa [perform, hostAccess, hostSetCur, eq_comm] using h⟩)))
      | read x =>
        simp only [perform, hostAccess, hostRead] at h
        split at h
        · rename_i v _
          exact .inr (.inr (.inr (.inr (.inl ⟨v, by simpa [eq_comm] using h⟩))))
        · simp at h
    | reset => exact .inr (.inr (.inr (.inr (.inr (by simpa [perform, applyReset, eq_comm] using h)))))
    | duringCommand bs => simp [perform] at h
    | secondHost a => simp [perform] at h

end Sys2Proof.Machine
end

