-- ==== Sys2Proof/Laws/PerInstr.lean ====
section
/-! SUPPORT. Statements about every instruction as syntax, one lemma per constructor. -/

namespace Sys2Proof.Laws.CommandForm

/-- The unit of a command, by its opcode byte: 1 the checksum generator, 2 the tag unit, 3 the chunk unit,
4 the container unit (R77). -/
def unit (i : Instr) : Nat := (opcode i).toNat / 16

/-- The command string is the opcode byte of one of the four units and then the operand bytes of the
command's format: none, one, four, or a count byte and that many more when the command is well-formed
(R76, R77). -/
def Statement (i : Instr) : Prop :=
  encode i = opcode i :: operandBytes i ∧ 1 ≤ unit i ∧ unit i ≤ 4 ∧
    ((operandBytes i).length = 0 ∨ (operandBytes i).length = 1 ∨ (operandBytes i).length = 4 ∨
      ∃ text, operandBytes i = encodeText text ∧
        (i.wf = true → text.length = (BitVec.ofNat 8 text.length).toNat))

/-- The count byte of a text that fits is its length (R76). -/
theorem textCount {text : List Byte} (h : textFits text = true) :
    text.length = (BitVec.ofNat 8 text.length).toNat := by
  simp only [textFits, decide_eq_true_eq] at h
  rw [BitVec.toNat_ofNat, Nat.mod_eq_of_lt (by omega)]

theorem crcInit : Statement .crcInit := ⟨rfl, by decide, by decide, .inl rfl⟩

theorem crcUpd (d : Byte) : Statement (.crcUpd d) :=
  ⟨rfl, by simp [unit, opcode], by simp [unit, opcode], .inr (.inl rfl)⟩

theorem crcFin : Statement .crcFin := ⟨rfl, by decide, by decide, .inl rfl⟩

theorem tagLdb (b0 b1 b2 b3 : Byte) : Statement (.tagLdb b0 b1 b2 b3) :=
  ⟨rfl, by simp [unit, opcode], by simp [unit, opcode], .inr (.inr (.inl rfl))⟩

theorem tagLdt (text : List Byte) : Statement (.tagLdt text) :=
  ⟨rfl, by simp [unit, opcode], by simp [unit, opcode], .inr (.inr (.inr ⟨text, rfl, textCount⟩))⟩

theorem tagRdt : Statement .tagRdt := ⟨rfl, by decide, by decide, .inl rfl⟩

theorem tagCmp (b0 b1 b2 b3 : Byte) : Statement (.tagCmp b0 b1 b2 b3) :=
  ⟨rfl, by simp [unit, opcode], by simp [unit, opcode], .inr (.inr (.inl rfl))⟩

theorem tagCrit : Statement .tagCrit := ⟨rfl, by decide, by decide, .inl rfl⟩

theorem tagPub : Statement .tagPub := ⟨rfl, by decide, by decide, .inl rfl⟩

theorem tagRsv : Statement .tagRsv := ⟨rfl, by decide, by decide, .inl rfl⟩

theorem tagSafe : Statement .tagSafe := ⟨rfl, by decide, by decide, .inl rfl⟩

theorem chNew : Statement .chNew := ⟨rfl, by decide, by decide, .inl rfl⟩

theorem chParse : Statement .chParse := ⟨rfl, by decide, by decide, .inl rfl⟩

theorem chSer : Statement .chSer := ⟨rfl, by decide, by decide, .inl rfl⟩

theorem chTxt : Statement .chTxt := ⟨rfl, by decide, by decide, .inl rfl⟩

theorem ctNew : Statement .ctNew := ⟨rfl, by decide, by decide, .inl rfl⟩

theorem ctParse : Statement .ctParse := ⟨rfl, by decide, by decide, .inl rfl⟩

theorem ctSer : Statement .ctSer := ⟨rfl, by decide, by decide, .inl rfl⟩

theorem ctApp : Statement .ctApp := ⟨rfl, by decide, by decide, .inl rfl⟩

theorem ctFind (key : List Byte) : Statement (.ctFind key) :=
  ⟨rfl, by simp [unit, opcode], by simp [unit, opcode], .inr (.inr (.inr ⟨key, rfl, textCount⟩))⟩

theorem ctRem (key : List Byte) : Statement (.ctRem key) :=
  ⟨rfl, by simp [unit, opcode], by simp [unit, opcode], .inr (.inr (.inr ⟨key, rfl, textCount⟩))⟩

end Sys2Proof.Laws.CommandForm
end

