-- ==== Sys2Proof/Laws/Runs.lean ====
section
/-! SUPPORT. Runs of commands and host scripts (R59, R175), and the inverted bit of R107 and R147. -/

namespace Sys2Proof.Machine

/-- A run of two parts is the second part from where the first one ended (R59). -/
theorem execAll_append {a b : List Instr} {s t : State} (h : execAll a s = .next t) :
    execAll (a ++ b) s = execAll b t := by
  induction a generalizing s with
  | nil =>
    cases h
    rfl
  | cons i a ih =>
    simp only [execAll, List.cons_append] at *
    cases hx : exec i s with
    | next u =>
      rw [hx] at h
      exact ih h
    | fault f => cases f
    | refused r =>
      rw [hx] at h
      cases h

/-- A load in a host script (R55). -/
@[simp] theorem runScript_loadIbuf (bs : List Byte) (rest : List Input) (s : State) :
    runScript (.access (.loadIbuf bs) :: rest) s = runScript rest { s with ibuf := bs } := rfl

/-- A load in a host script (R55). -/
@[simp] theorem runScript_loadPbuf (bs : List Byte) (rest : List Input) (s : State) :
    runScript (.access (.loadPbuf bs) :: rest) s = runScript rest { s with pbuf := bs } := rfl

/-- A command of a host script that ends with success: the script goes on (R175). -/
theorem runScript_success {i : Instr} {rest : List Input} {s t : State}
    (hd : decode (encode i) = .ok i) (he : exec i s = .next t) (h0 : t.status = 0#8) :
    runScript (issue i :: rest) s = runScript rest t := by
  simp [runScript, perform, issueCommand, issue, Input.isCommand, hd, he, h0]

/-- A command of a host script that fails: the script ends there (R175 (b)). -/
theorem runScript_failure {i : Instr} {rest : List Input} {s t : State}
    (hd : decode (encode i) = .ok i) (he : exec i s = .next t) (h0 : t.status ≠ 0#8) :
    runScript (issue i :: rest) s = .failed t := by
  simp [runScript, perform, issueCommand, issue, Input.isCommand, hd, he, h0]

/-- `HOST.READ OBUF[0 .. OLEN)` gives all of `OBUF` (R50). -/
@[simp] theorem readObuf_eq (result : List Byte → State → UseCase) (t : State) :
    readObuf result t = result t.obuf t := by
  have h : memRead t.obuf 0 t.obuf.length = some t.obuf := by
    rw [memRead_eq_some]
    simp [slice]
  simp [readObuf, readTarget, spaceBytes, h]

/-- Inverting a bit changes one byte of the sequence, at its place. -/
theorem flipBit_split {s : List Byte} {i : Nat} (k : Nat) (h : i < s.length) :
    ∃ a b c, s = a ++ b :: c ∧ a.length = i ∧ flipBit s i k = a ++ (b ^^^ (1#8 <<< k)) :: c := by
  refine ⟨s.take i, s[i], s.drop (i + 1), ?_, by simp; omega, ?_⟩
  · rw [List.getElem_cons_drop, List.take_append_drop]
  · unfold flipBit
    rw [List.modify_eq_take_cons_drop h]

@[simp] theorem flipBit_length (s : List Byte) (i k : Nat) : (flipBit s i k).length = s.length := by
  simp [flipBit]

theorem flipBit_append_left {a : List Byte} (b : List Byte) {i : Nat} (k : Nat) (h : i < a.length) :
    flipBit (a ++ b) i k = flipBit a i k ++ b := by
  induction a generalizing i with
  | nil => simp at h
  | cons x a ih =>
    cases i with
    | zero => simp [flipBit]
    | succ i => simpa [flipBit] using ih (by simpa using h)

theorem flipBit_append_right {a : List Byte} (b : List Byte) {i : Nat} (k : Nat) (h : a.length ≤ i) :
    flipBit (a ++ b) i k = a ++ flipBit b (i - a.length) k := by
  induction a generalizing i with
  | nil => simp
  | cons x a ih =>
    cases i with
    | zero => simp at h
    | succ i => simpa [flipBit] using ih (by simpa using h)

end Sys2Proof.Machine
end

