-- ==== Sys2Proof/Laws/Text.lean ====
section
/-! SUPPORT. The text test (R145): the first byte of a character picks its row, and the bytes of a row are
taken one by one. -/

namespace Sys2Proof.Machine

/-- The byte lies in the range. -/
abbrev inRange (b : Byte) (r : Nat × Nat) : Prop := r.1 ≤ b.toNat ∧ b.toNat ≤ r.2

/-- Bytes that lie in the pending ranges are taken, and the test goes on behind them. -/
theorem utf8Run_append {pending : List (Nat × Nat)} {c : List Byte} (rest : List Byte)
    (h : List.Forall₂ inRange c pending) : utf8Run pending (c ++ rest) = utf8Run [] rest := by
  induction h with
  | nil => rfl
  | cons h _ ih => simp [utf8Run, h.1, h.2, ih]

/-- The table of R145 row by row: each byte of a row's first range must be followed by the row's other
ranges. -/
theorem utf8Rows_follow :
    ∀ row ∈ utf8Rows, ∀ b : Byte, ∀ r ∈ row.head?, inRange b r → utf8Follow b = some row.tail := by
  decide +kernel

/-- A byte in the first range of a row starts a character of that row. -/
theorem utf8Follow_of_row {b : Byte} {r : Nat × Nat} {row : List (Nat × Nat)}
    (hr : r :: row ∈ utf8Rows) (h : inRange b r) : utf8Follow b = some row :=
  utf8Rows_follow _ hr b r rfl h

/-- A byte that starts a character lies in the first range of the row it picks. -/
theorem row_of_utf8Follow {b : Byte} {row : List (Nat × Nat)} (h : utf8Follow b = some row) :
    ∃ r, r :: row ∈ utf8Rows ∧ inRange b r := by
  unfold utf8Follow at h
  simp only at h
  split_ifs at h <;> cases h
  · exact ⟨(0x00, 0x7F), by decide, by simp only [inRange]; omega⟩
  · exact ⟨(0xC2, 0xDF), by decide, by simp only [inRange]; omega⟩
  · exact ⟨(0xE0, 0xE0), by decide, by simp only [inRange]; omega⟩
  · exact ⟨(0xE1, 0xEC), by decide, by simp only [inRange]; omega⟩
  · exact ⟨(0xED, 0xED), by decide, by simp only [inRange]; omega⟩
  · exact ⟨(0xEE, 0xEF), by decide, by simp only [inRange]; omega⟩
  · exact ⟨(0xF0, 0xF0), by decide, by simp only [inRange]; omega⟩
  · exact ⟨(0xF1, 0xF3), by decide, by simp only [inRange]; omega⟩
  · exact ⟨(0xF4, 0xF4), by decide, by simp only [inRange]; omega⟩

end Sys2Proof.Machine
end

