-- ==== Sys2Proof/Tests/Slice0.lean ====
section
/-! SUPPORT. Tests: the smoke test of WellFormed, strings written out from the formats (R76, R77), the
spec's vectors (`spec/95_test_vectors.md`, cited as V<n>), and for every statement a state and operands
that meet its hypotheses. -/

namespace Sys2Proof.Tests

open Sys2Proof Sys2Proof.Machine

/-- One view of the state a command answers, none when it answers no state. -/
def after {α : Type} (f : State → α) : Host.Outcome State Fault Refusal → Option α
  | .next t => some (f t)
  | .fault _ => none
  | .refused _ => none

/-- The report: `STATUS`, `EVAL`, `EOFF`, `ETAG`. -/
def report (s : State) : Nat × Nat × Nat × Word := (s.status.toNat, s.eval.toNat, s.eoff, s.etag)

/-! ### WellFormed -/

theorem test_wf_refuses_long_ldt : (Instr.tagLdt (List.replicate 256 0x41#8)).wf = false := by
  decide +kernel
theorem test_wf_refuses_long_find : (Instr.ctFind (List.replicate 256 0x41#8)).wf = false := by
  decide +kernel
theorem test_wf_refuses_long_rem : (Instr.ctRem (List.replicate 256 0x41#8)).wf = false := by
  decide +kernel
theorem test_wf_takes_255 : (Instr.ctFind (List.replicate 255 0x41#8)).wf = true := by
  decide +kernel

/-! ### Decode: one string per constructor, written out from R76 and R77 -/

theorem test_decode_crcInit : decode [0x10#8] = .ok .crcInit := rfl
theorem test_decode_crcUpd : decode [0x11#8, 0xA5#8] = .ok (.crcUpd 0xA5#8) := rfl
theorem test_decode_crcFin : decode [0x12#8] = .ok .crcFin := rfl
theorem test_decode_tagLdb : decode [0x20#8, 0x52#8, 0x75#8, 0x53#8, 0x74#8] =
    .ok (.tagLdb 0x52#8 0x75#8 0x53#8 0x74#8) := rfl
theorem test_decode_tagLdt : decode [0x21#8, 0x03#8, 0x52#8, 0x75#8, 0x53#8] =
    .ok (.tagLdt [0x52#8, 0x75#8, 0x53#8]) := rfl
theorem test_decode_tagRdt : decode [0x22#8] = .ok .tagRdt := rfl
theorem test_decode_tagCmp : decode [0x23#8, 0x52#8, 0x75#8, 0x53#8, 0x74#8] =
    .ok (.tagCmp 0x52#8 0x75#8 0x53#8 0x74#8) := rfl
theorem test_decode_tagCrit : decode [0x24#8] = .ok .tagCrit := rfl
theorem test_decode_tagPub : decode [0x25#8] = .ok .tagPub := rfl
theorem test_decode_tagRsv : decode [0x26#8] = .ok .tagRsv := rfl
theorem test_decode_tagSafe : decode [0x27#8] = .ok .tagSafe := rfl
theorem test_decode_chNew : decode [0x30#8] = .ok .chNew := rfl
theorem test_decode_chParse : decode [0x31#8] = .ok .chParse := rfl
theorem test_decode_chSer : decode [0x32#8] = .ok .chSer := rfl
theorem test_decode_chTxt : decode [0x33#8] = .ok .chTxt := rfl
theorem test_decode_ctNew : decode [0x40#8] = .ok .ctNew := rfl
theorem test_decode_ctParse : decode [0x41#8] = .ok .ctParse := rfl
theorem test_decode_ctSer : decode [0x42#8] = .ok .ctSer := rfl
theorem test_decode_ctApp : decode [0x43#8] = .ok .ctApp := rfl
theorem test_decode_ctFind : decode [0x44#8, 0x00#8] = .ok (.ctFind []) := rfl
theorem test_decode_ctRem : decode [0x45#8, 0x04#8, 0x54#8, 0x45#8, 0x53#8, 0x54#8] =
    .ok (.ctRem [0x54#8, 0x45#8, 0x53#8, 0x54#8]) := rfl

/-- The codes next to the defined ones are reserved (R77, R78). -/
theorem test_reserved_opcodes :
    [0x00#8, 0x0F#8, 0x13#8, 0x1F#8, 0x28#8, 0x34#8, 0x3F#8, 0x46#8, 0xFF#8].all
      (fun op => decode [op] == .error (.reservedOpcode op)) = true := by decide

/-- Strings of a wrong length (R78). -/
theorem test_wrong_lengths :
    [[0x10#8, 0x00#8], [0x11#8], [0x11#8, 1#8, 2#8], [0x20#8, 1#8, 2#8, 3#8], [0x21#8],
      [0x44#8, 0x02#8, 0x41#8], [0x44#8, 0x00#8, 0x41#8]].all
      (fun bs => decode bs == .error (.badLength (bs.headD 0))) = true ∧
    decode [] = .error .emptyString := by decide

/-- The table's numbering: byte 0 in bits 7 to 0; operand bytes the table leaves out are 0 (R77). -/
theorem test_table_words :
    decodeTableWord 16 0x3111 = some (.crcUpd 0x31#8) ∧
    decodeTableWord 40 0x7453755220 = some (.tagLdb 0x52#8 0x75#8 0x53#8 0x74#8) ∧
    decodeTableWord 8 0x31 = some .chParse ∧
    decodeTableWord 8 0x21 = some (.tagLdt []) ∧
    decodeTableWord 16 0x0344 = some (.ctFind [0#8, 0#8, 0#8]) ∧
    decodeTableWord 8 0x13 = none := by decide

/-- The very next step runs the placed command. -/
theorem test_fetch_runs :
    after (fun t => t.crcr) (step (State.reset.withFetchWord 16 0x3111)) = some 0x7C231048#32 := by
  decide +kernel

/-! ### The checksum generator -/

/-- Section 2.2: entries of the table. -/
theorem test_crcTable :
    [(0#8, 0x00000000#32), (1#8, 0x77073096#32), (2#8, 0xEE0E612C#32), (8#8, 0x0EDB8832#32),
      (16#8, 0x1DB71064#32), (128#8, 0xEDB88320#32), (255#8, 0x2D02EF8D#32)].all
      (fun r => crcTable r.1 == r.2) = true := by decide +kernel

/-- Section 2.1: the register after each bit of `0x31`. -/
theorem test_crcBit :
    [true, false, false, false, true, true, false, false].foldl
      (fun (r : List Word) d => r ++ [crcBit (r.getLastD 0) d]) [0xFFFFFFFF#32] =
    [0xFFFFFFFF#32, 0x7FFFFFFF#32, 0xD2477CDF#32, 0x849B3D4F#32, 0xAFF51D87#32, 0x57FA8EC3#32,
      0x2BFD4761#32, 0xF8462090#32, 0x7C231048#32] := by decide +kernel

/-- Section 2.3, the published check value: `123456789`. -/
theorem test_crc32_check :
    crc32 [0x31#8, 0x32#8, 0x33#8, 0x34#8, 0x35#8, 0x36#8, 0x37#8, 0x38#8, 0x39#8] = 0xCBF43926#32 := by
  decide +kernel

/-- V3.1.2. -/
theorem test_crcInit :
    after (fun t => (t.crcr, t.crco)) (exec .crcInit { State.reset with crcr := 0x12345678#32, crco := 7 }) =
      some (0xFFFFFFFF#32, 7#32) := by decide

/-- V3.1.3 and V3.1.4. -/
theorem test_crcUpd :
    after (fun t => t.crcr) (exec (.crcUpd 0x00#8) State.reset) = some 0x2DFD1072#32 ∧
    after (fun t => t.crcr) (exec (.crcUpd 0xFF#8) State.reset) = some 0x00FFFFFF#32 := by decide +kernel

/-- V3.1.7. -/
theorem test_crcFin :
    after (fun t => (t.crcr, t.crco)) (exec .crcFin { State.reset with crcr := 0x340BC6D9#32 }) =
      some (0x340BC6D9#32, 0xCBF43926#32) := by decide

/-! ### The tag unit -/

/-- V3.2.2. -/
theorem test_tagLdb :
    after (fun t => t.tag) (exec (.tagLdb 0x00#8 0xFF#8 0x31#8 0x40#8) State.reset) = some 0x00FF3140#32 := by
  decide

/-- V3.2.11: the four boundary letters. -/
theorem test_tagLdt_letters :
    after (fun t => (t.tag, report t)) (exec (.tagLdt [0x41#8, 0x5A#8, 0x61#8, 0x7A#8]) State.reset) =
      some (0x415A617A#32, (0, 0, 0, 0#32)) := by decide

/-- V3.2.4 to V3.2.10: a wrong length, a digit, and the bytes just outside the two ranges. -/
theorem test_tagLdt_rejects :
    [[], [0x52#8, 0x75#8, 0x53#8], [0x52#8, 0x75#8, 0x53#8, 0x74#8, 0x78#8],
      [0x52#8, 0x75#8, 0x35#8, 0x74#8], [0xC3#8, 0xA9#8, 0xC3#8, 0xA9#8],
      [0x40#8, 0x42#8, 0x43#8, 0x44#8], [0x5B#8, 0x42#8, 0x43#8, 0x44#8],
      [0x60#8, 0x42#8, 0x43#8, 0x44#8], [0x7B#8, 0x42#8, 0x43#8, 0x44#8]].all
      (fun text => after (fun t => (t.tag, report t))
          (exec (.tagLdt text) { State.reset with tag := 0x52755374#32 }) ==
        some (0x52755374#32, (4, 0, 0, 0#32))) = true := by decide

/-- V3.2.12. -/
theorem test_tagRdt :
    after (fun t => t.obuf) (exec .tagRdt { State.reset with tag := 0x72755374#32 }) =
      some [0x72#8, 0x75#8, 0x53#8, 0x74#8] := by decide

/-- V3.2.14 to V3.2.17. -/
theorem test_tagCmp :
    (let cmp := fun (tag : Word) (b0 b1 b2 b3 : Byte) =>
      after (fun t => (t.fl.eq, t.fl.lt)) (exec (.tagCmp b0 b1 b2 b3) { State.reset with tag := tag })
    cmp 0x52755374#32 0x52#8 0x75#8 0x53#8 0x74#8 = some (true, false) ∧
    cmp 0x52755374#32 0x72#8 0x75#8 0x73#8 0x74#8 = some (false, true) ∧
    cmp 0x72757374#32 0x52#8 0x75#8 0x53#8 0x74#8 = some (false, false) ∧
    cmp 0x52755374#32 0x52#8 0x75#8 0x53#8 0x75#8 = some (false, true)) := by decide

/-- Section 1.1 and V3.2.18 to V3.2.21: `TAG.CRIT`, `TAG.PUB`, `TAG.RSV`, `TAG.SAFE` on each tag. -/
theorem test_tag_predicates :
    [(0x52755374#32, [true, false, true, true]), (0x72755374#32, [false, false, true, true]),
      (0x52555374#32, [true, true, true, true]), (0x52757374#32, [true, false, false, true]),
      (0x52755354#32, [true, false, true, false]), (0x00000000#32, [true, true, true, false]),
      (0xFFFFFFFF#32, [false, false, false, true]), (0x20202020#32, [false, false, false, true]),
      (0x10101010#32, [true, true, true, false])].all
      (fun r => [Instr.tagCrit, .tagPub, .tagRsv, .tagSafe].map
          (fun i => after (fun t => t.fl.p) (exec i { State.reset with tag := r.1 })) ==
        r.2.map some) = true := by decide

/-! ### The chunk unit -/

/-- The chunk of `F_TEST` (section 3.3). -/
def cTest : Chunk := { tag := 0x54455354#32, pay := [1#8, 2#8, 3#8], crc := 0x8442FDE4#32 }

/-- The chunk of `F_HELLO` (section 3.3). -/
def cHello : Chunk :=
  { tag := 0x72755374#32, pay := [0x68#8, 0x65#8, 0x6C#8, 0x6C#8, 0x6F#8], crc := 0xAE508D6F#32 }

/-- `F_TEST` (section 3.3), written out. -/
def fTest : List Byte :=
  [0#8, 0#8, 0#8, 3#8, 0x54#8, 0x45#8, 0x53#8, 0x54#8, 1#8, 2#8, 3#8, 0x84#8, 0x42#8, 0xFD#8, 0xE4#8]

/-- `F_HELLO` (section 3.3), written out. -/
def fHello : List Byte :=
  [0#8, 0#8, 0#8, 5#8, 0x72#8, 0x75#8, 0x53#8, 0x74#8, 0x68#8, 0x65#8, 0x6C#8, 0x6C#8, 0x6F#8, 0xAE#8,
    0x50#8, 0x8D#8, 0x6F#8]

/-- `F_BAD` (section 3.3), written out. -/
def fBad : List Byte :=
  [0#8, 0#8, 0#8, 1#8, 0x52#8, 0x75#8, 0x35#8, 0x74#8, 0x78#8, 0xEF#8, 0x3D#8, 0x59#8, 0x9F#8]

/-- The default signature, written out (R6). -/
def sigDefault : List Byte := [0x89#8, 0x50#8, 0x4E#8, 0x47#8, 0x0D#8, 0x0A#8, 0x1A#8, 0x0A#8]

/-- V3.3.1. -/
theorem test_chNew :
    after (fun t => (t.w, t.crcr, t.crco))
        (exec .chNew { State.reset with tag := 0x54455354#32, pbuf := [1#8, 2#8, 3#8] }) =
      some (WorkReg.ofChunk cTest, 0xFFFFFFFF#32, 0#32) := by decide +kernel

/-- V3.3.7, the second command. -/
theorem test_chParse :
    after (fun t => (t.w, t.cur)) (exec .chParse { State.reset with ibuf := fTest ++ fHello, cur := 15 }) =
      some (WorkReg.ofChunk cHello, 32) := by decide +kernel

/-- V3.3.9, V3.3.10, V3.3.12, V3.3.14, and the first row of section 3.4. -/
theorem test_chParse_fails :
    (let run := fun (buf : List Byte) (cur : Nat) =>
      after report (exec .chParse { State.reset with ibuf := buf, cur := cur })
    run fTest 99 = some (1, 1, 99, 0#32) ∧
    run (fTest.take 7) 0 = some (1, 1, 0, 0#32) ∧
    run (fTest.take 14) 0 = some (1, 3, 0, 0x54455354#32) ∧
    run [0xFF#8, 0xFF#8, 0xFF#8, 0xF8#8, 0x54#8, 0x45#8, 0x53#8, 0x54#8, 0#8, 0#8, 0#8, 0#8] 0 =
      some (1, 3, 0, 0x54455354#32) ∧
    run (flipBit fTest 4 0) 0 = some (3, 3, 0, 0x55455354#32)) := by decide +kernel

/-- V3.3.15 and V3.3.16: the two values of `TAG_CHECK_ON_PARSE`; a flipped `F_ABCD` (section 3.4). -/
theorem test_chunkParse_check :
    chunkParse false fBad = .ok ({ tag := 0x52753574#32, pay := [0x78#8], crc := 0xEF3D599F#32 }, 13) ∧
    chunkParse true fBad = .error { kind := .formatError, tag := some 0x52753574#32 } ∧
    chunkParse true [0#8, 0#8, 0#8, 0#8, 0x40#8, 0x42#8, 0x43#8, 0x44#8, 0xDB#8, 0x17#8, 0x20#8, 0xA5#8] =
      .error { kind := .checksumMismatch, tag := some 0x40424344#32 } := by
  refine ⟨?_, ?_, ?_⟩ <;> decide +kernel

/-- V3.3.4. -/
theorem test_chSer :
    after (fun t => t.obuf) (exec .chSer { State.reset with w := WorkReg.ofChunk cTest }) = some fTest := by
  decide

/-- V3.3.17 and V3.3.18. -/
theorem test_chTxt :
    after (fun t => (t.obuf, report t)) (exec .chTxt { State.reset with w := WorkReg.ofChunk cHello }) =
      some (cHello.pay, (0, 0, 0, 0#32)) ∧
    after (fun t => (t.obuf, report t)) (exec .chTxt { State.reset with
        w := { v := true, tag := 0x72755374#32, pay := [0xFF#8], crc := 0x117AD78A#32 } }) =
      some ([], (5, 2, 0, 0x72755374#32)) := by decide

/-- The valid rows of the table of section 3.3. -/
theorem test_utf8_valid :
    [[], [0x00#8], [0x68#8, 0xC3#8, 0xA9#8], [0xE2#8, 0x82#8, 0xAC#8], [0xF0#8, 0x9F#8, 0x98#8, 0x80#8],
      [0xEF#8, 0xBB#8, 0xBF#8, 0x68#8, 0x69#8], [0xED#8, 0x9F#8, 0xBF#8], [0xF4#8, 0x8F#8, 0xBF#8, 0xBF#8],
      [0xE0#8, 0xA0#8, 0x80#8]].all utf8Valid = true := by decide

/-- The invalid rows of the table of section 3.3. -/
theorem test_utf8_invalid :
    [[0xC3#8], [0xE2#8, 0x82#8], [0x80#8], [0xFF#8], [0xC0#8, 0x80#8], [0xC1#8, 0xBF#8],
      [0xE0#8, 0x80#8, 0x80#8], [0xF0#8, 0x8F#8, 0xBF#8, 0xBF#8], [0xED#8, 0xA0#8, 0x80#8],
      [0xF4#8, 0x90#8, 0x80#8, 0x80#8], [0xF5#8, 0x80#8, 0x80#8, 0x80#8]].all
      (fun s => !utf8Valid s) = true := by decide

/-! ### The container unit -/

/-- V3.5.13. -/
theorem test_ctNew :
    after (fun t => (t.cseq, t.cur)) (exec .ctNew { State.reset with cseq := [cTest, cHello], cur := 40 }) =
      some ([], 40) := by decide

/-- V3.5.3 (with the default signature as the parameter). -/
theorem test_contParse :
    contParse sigDefault true (sigDefault ++ fTest ++ fHello) = .ok [cTest, cHello] := by decide +kernel

/-- V3.6.1, V3.6.2, section 3.6 at 9 and 16 bytes, V3.6.4, V3.6.5, V3.6.9 and V3.6.10. -/
theorem test_contParse_fails :
    (let run := contParse sigDefault true
    let g := sigDefault ++ fTest ++ fHello
    run (List.replicate 8 0#8) = .error { kind := .signatureMismatch, offset := 0, tag := none } ∧
    run (List.replicate 7 0#8) = .error { kind := .truncatedInput, offset := 0, tag := none } ∧
    run (g.take 9) = .error { kind := .truncatedInput, offset := 8, tag := none } ∧
    run (g.take 16) = .error { kind := .truncatedInput, offset := 8, tag := some 0x54455354#32 } ∧
    run (flipBit g 17 0) = .error { kind := .checksumMismatch, offset := 8, tag := some 0x54455354#32 } ∧
    run (g.take 39) = .error { kind := .truncatedInput, offset := 23, tag := some 0x72755374#32 } ∧
    run (sigDefault ++ fTest ++ fBad) =
      .error { kind := .formatError, offset := 23, tag := some 0x52753574#32 }) := by
  refine ⟨?_, ?_, ?_, ?_, ?_, ?_, ?_⟩ <;> decide +kernel

/-- The signature bytes of the default value (R6, R70), and the stream of V3.5.3. -/
theorem test_contSer :
    sigBytesOf Config.SIG_DEFAULT = sigDefault ∧
    contSer sigDefault [cTest, cHello] = sigDefault ++ fTest ++ fHello := by decide

/-- V3.5.12. -/
theorem test_ctApp :
    after (fun t => t.cseq) (exec .ctApp { State.reset with w := WorkReg.ofChunk cTest, cseq := [cTest] }) =
      some [cTest, cTest] := by decide

/-- V3.5.4 to V3.5.6. -/
theorem test_ctFind :
    [[0x72#8, 0x75#8, 0x53#8, 0x74#8], [0x72#8, 0x75#8, 0x73#8, 0x74#8], [0x54#8, 0x45#8, 0x53#8]].map
      (fun key => after (fun t => (t.fl.hit, t.idx, t.w, t.status))
        (exec (.ctFind key) { State.reset with cseq := [cTest, cHello], idx := 9 })) =
    [some (true, 1, WorkReg.ofChunk cHello, 0),
      some (false, 9, WorkReg.reset, 0),
      some (false, 9, WorkReg.reset, 0)] := by decide

/-- V3.5.8. -/
theorem test_ctRem :
    after (fun t => (t.cseq, t.w, t.idx)) (exec (.ctRem [0x54#8, 0x45#8, 0x53#8, 0x54#8])
        { State.reset with cseq := [cTest, cHello], idx := 9 }) =
      some ([cHello], WorkReg.ofChunk cTest, 0) := by decide

/-- V3.5.9 and V3.5.10. -/
theorem test_ctRem_fails :
    after (fun t => (t.cseq, report t)) (exec (.ctRem [0x6E#8, 0x6F#8, 0x6E#8, 0x65#8])
        { State.reset with cseq := [cTest] }) = some ([cTest], (6, 2, 0, 0x6E6F6E65#32)) ∧
    after report (exec (.ctRem [0x74#8, 0x6F#8, 0x6F#8, 0x6C#8, 0x6F#8, 0x6E#8, 0x67#8]) State.reset) =
      some (6, 0, 0, 0#32) := by decide

/-! ### The host -/

/-- `HOST.READ` gives a number or a piece of a space, and `FL` as its four bits (R28, R79). -/
theorem test_host_reads :
    readTarget { State.reset with fl := { p := true, eq := false, lt := false, hit := true } } .fl =
      some (.number 9) ∧
    readTarget { State.reset with obuf := [5#8, 6#8, 7#8] } (.bytes .obuf 1 3) =
      some (.bytes [6#8, 7#8]) ∧
    readTarget { State.reset with obuf := [5#8, 6#8, 7#8] } (.bytes .obuf 1 4) = none ∧
    readTarget { State.reset with cseq := [cTest] } (.cseqLen 0) = some (.number 3) ∧
    readTarget { State.reset with cseq := [cTest] } (.cseqLen 1) = none := by decide

/-- The situations of R214 and R210 with no meaning. -/
theorem test_refusals :
    step { State.reset with inputs := [.duringCommand [0x10#8]] } = .refused .accessDuringCommand ∧
    step { State.reset with inputs := [.secondHost (.setCur 0)] } = .refused .secondHost :=
  ⟨rfl, rfl⟩

/-- The rows of V3.7.10, once the container is parsed. -/
theorem test_render_rows :
    readRows { State.reset with cseq := [cTest, cHello] } [0, 1] =
      some [(0x54455354, 3, 0x8442FDE4), (0x72755374, 5, 0xAE508D6F)] := by decide

/-! ### Witnesses: for every statement with hypotheses, a state and operands that meet them all -/

theorem cTest_ok : chunkOk cTest := ⟨by decide +kernel, by decide⟩
theorem cHello_ok : chunkOk cHello := ⟨by decide +kernel, by decide⟩
theorem letters_test : fourLetters [0x54#8, 0x45#8, 0x53#8, 0x54#8] := by
  unfold fourLetters
  decide
theorem letters_hello : fourLetters [0x72#8, 0x75#8, 0x53#8, 0x74#8] := by
  unfold fourLetters
  decide
theorem not_letters_zero : ¬ fourLetters [0#8, 0#8, 0#8, 0#8] := by
  unfold fourLetters
  decide

/-- A longest payload. -/
@[irreducible] def longest : List Byte := List.replicate 4294967295 0#8
theorem longest_length : longest.length = 4294967295 := by
  unfold longest
  exact List.length_replicate

theorem lt_length_cons {l : List Byte} {n : Nat} (b : Byte) (h : l.length = n) : n < (b :: l).length := by
  rw [List.length_cons, h]
  exact Nat.lt_succ_self n

/-- The chunk of a longest payload. -/
def cLongest : Chunk := { tag := 0x54455354#32, pay := longest, crc := crc32 (be32 0x54455354#32 ++ longest) }
theorem cLongest_ok : chunkOk cLongest := ⟨rfl, Nat.le_of_eq longest_length⟩

theorem good_chunks {c : Chunk} (h : c ∈ [cTest, cHello]) : chunkOk c ∧ fourLetters (be32 c.tag) := by
  simp only [List.mem_cons, List.not_mem_nil, or_false] at h
  rcases h with rfl | rfl
  · exact ⟨cTest_ok, letters_test⟩
  · exact ⟨cHello_ok, letters_hello⟩

/-- The stream of the two chunks parses, whatever the open parameters are. -/
theorem two_chunks_parse :
    contParse sigBytes Config.TAG_CHECK_ON_PARSE (contSer sigBytes [cTest, cHello]) =
      .ok [cTest, cHello] := by
  rw [contSer, contParse_sig _ rfl]
  exact contFrames_framesOf (fun _ h => (good_chunks h).1)
    (fun _ _ h => (tagValid_iff _).mpr (good_chunks h).2) (length_le_framesOf_length _)

theorem empty_stream_parses :
    contParse sigBytes Config.TAG_CHECK_ON_PARSE (contSer sigBytes []) = .ok [] := by
  rw [contSer, contParse_sig _ rfl]
  rfl

/-- The state after reset with these inputs to come. -/
def presenting (e : Input) : State := { State.reset with inputs := [e] }

theorem witness_DecodeOfEncodeIsTheCommand :
    Instr.wf .crcInit = true ∧ Instr.wf (.tagLdt []) = true ∧
      Instr.wf (.ctRem (List.replicate 255 0x41#8)) = true := by decide +kernel

theorem witness_EncodeOfDecodeIsTheString :
    decode [0x44#8, 0x01#8, 0x41#8] = .ok (.ctFind [0x41#8]) := rfl

theorem witness_ReservedAndMalformedStringsAreRefused :
    ∀ bs ∈ [[], [0x13#8], [0x10#8, 0#8], [0x21#8, 1#8]],
      (presenting (.command bs)).inputs = .command bs :: [] ∧ ¬ fitsAFormat bs := by
  intro bs h
  refine ⟨rfl, ?_⟩
  simp only [List.mem_cons, List.not_mem_nil, or_false] at h
  rcases h with rfl | rfl | rfl | rfl <;> simp [fitsAFormat]

theorem witness_StepRunsTheDecodedCommand :
    (presenting (.command [0x31#8])).inputs = .command [0x31#8] :: [] ∧
      decode [0x31#8] = .ok .chParse := ⟨rfl, rfl⟩

theorem witness_EveryCommandCompletes :
    (needsChunk .ctApp → ({ State.reset with w := WorkReg.ofChunk cTest } : State).w.v = true) ∧
      (needsChunk .ctSer → State.reset.w.v = true) := by
  simp [needsChunk]

/-- An empty `W`; a hit; a success with a chunk in `W`. -/
theorem witness_ChunkReadersAreRefusedWithoutAChunk :
    (needsChunk .chSer ∧ needsChunk .chTxt ∧ needsChunk .ctApp ∧ State.reset.w.v = false) ∧
    (∃ t, exec (.ctFind (be32 cTest.tag)) { State.reset with cseq := [cTest] } = .next t ∧ t.status = 0 ∧
      t.fl.hit = true) ∧
    (∃ t, exec .ctNew { State.reset with w := WorkReg.ofChunk cTest } = .next t ∧
      ({ State.reset with w := WorkReg.ofChunk cTest } : State).w.v = true) :=
  ⟨by simp [needsChunk, State.reset, WorkReg.reset], ⟨_, rfl, rfl, rfl⟩, ⟨_, rfl, rfl⟩⟩

theorem witness_OneFlippedBitChangesTheChecksum :
    0 < [0xFF#8].length ∧ 0 < 8 ∧ 14 < fTest.length ∧ 7 < 8 := by decide

theorem witness_OtherCommandsIgnoreTheCrcRegisters :
    Instr.chNew ≠ .crcInit ∧ (∀ d, Instr.chNew ≠ .crcUpd d) ∧ Instr.chNew ≠ .crcFin := by simp

theorem witness_TagLdtLoadsExactlyFourLetters :
    (List.replicate 255 0x41#8).length ≤ 255 ∧
      fourLetters [0x41#8, 0x5A#8, 0x61#8, 0x7A#8] ∧ ¬ fourLetters [] ∧
      ¬ fourLetters [0x40#8, 0x42#8, 0x43#8, 0x44#8] ∧
      ¬ fourLetters [0x41#8, 0x42#8, 0x43#8, 0x44#8, 0x45#8] := by
  unfold fourLetters
  exact ⟨Nat.le_of_eq List.length_replicate, by decide⟩

theorem witness_TagRdtWritesTheTagText :
    (∀ b ∈ be32 0x7F000041#32, b.toNat < 0x80) ∧ ∃ b ∈ be32 0x00000080#32, 0x80 ≤ b.toNat := by
  decide

theorem witness_TagCmpComparesByteByByte :
    be32 ({ State.reset with tag := 0x52755374#32 } : State).tag = [0x52#8, 0x75#8, 0x53#8, 0x74#8] := rfl

theorem witness_TagPredicatesReadBitFive :
    be32 ({ State.reset with tag := 0xFF002000#32 } : State).tag = [0xFF#8, 0x00#8, 0x20#8, 0x00#8] := rfl

theorem witness_LetterCaseGivesTheProperties :
    be32 0x72755374#32 = [0x72#8, 0x75#8, 0x53#8, 0x74#8] ∧
      fourLetters [0x72#8, 0x75#8, 0x53#8, 0x74#8] := ⟨rfl, letters_hello⟩

theorem witness_ChNewBuildsTheChunk :
    ({ State.reset with pbuf := longest } : State).pbuf.length ≤ 4294967295 ∧
      4294967295 < ({ State.reset with pbuf := 0#8 :: longest } : State).pbuf.length :=
  ⟨Nat.le_of_eq longest_length, lt_length_cons 0#8 longest_length⟩

/-- A frame between other bytes, at the cursor; a tag of letters, a tag of none, a longest payload. -/
theorem witness_ChParseReadsOneFrame :
    (∃ (s : State) (before after p : List Byte) (t : Word),
      s.ibuf = before ++ frameBytes t p (crc32 (be32 t ++ p)) ++ after ∧ s.cur = before.length ∧
        p.length ≤ 4294967295 ∧ fourLetters (be32 t) ∧ before ≠ [] ∧ after ≠ []) ∧
    (∃ (s : State) (before after p : List Byte) (t : Word),
      s.ibuf = before ++ frameBytes t p (crc32 (be32 t ++ p)) ++ after ∧ s.cur = before.length ∧
        p.length = 4294967295 ∧ ¬ fourLetters (be32 t)) :=
  ⟨⟨{ State.reset with
        ibuf := [9#8] ++ frameBytes 0x54455354#32 [1#8] (crc32 (be32 0x54455354#32 ++ [1#8])) ++ [7#8]
        cur := 1 },
      [9#8], [7#8], [1#8], 0x54455354#32, rfl, rfl, by decide, letters_test, by decide, by decide⟩,
    ⟨{ State.reset with ibuf := [] ++ frameBytes 0 longest (crc32 (be32 0 ++ longest)) ++ [] },
      [], [], longest, 0, rfl, rfl, longest_length, not_letters_zero⟩⟩

/-- Seven bytes; a header of length 0 and three bytes; the longest length field and four bytes. -/
theorem witness_ChParseReportsTruncation :
    (∃ s : State, s.ibuf.length < s.cur + 8 ∧ s.ibuf.length = 7) ∧
    (∃ (s : State) (before rest : List Byte) (len t : Word),
      s.ibuf = before ++ be32 len ++ be32 t ++ rest ∧ s.cur = before.length ∧
        rest.length < len.toNat + 4 ∧ len = 0) ∧
    (∃ (s : State) (before rest : List Byte) (len t : Word),
      s.ibuf = before ++ be32 len ++ be32 t ++ rest ∧ s.cur = before.length ∧
        rest.length < len.toNat + 4 ∧ len = 0xFFFFFFFF#32) :=
  ⟨⟨{ State.reset with ibuf := List.replicate 7 0#8 }, by decide, rfl⟩,
    ⟨{ State.reset with ibuf := [] ++ be32 0 ++ be32 0 ++ [1#8, 2#8, 3#8] }, [], [1#8, 2#8, 3#8], 0, 0,
      rfl, rfl, by decide, rfl⟩,
    ⟨{ State.reset with ibuf := [5#8] ++ be32 0xFFFFFFFF#32 ++ be32 0 ++ be32 0, cur := 1 }, [5#8], be32 0,
      0xFFFFFFFF#32, 0, rfl, rfl, by decide, rfl⟩⟩

theorem witness_ChParseReportsAWrongChecksum :
    ∃ (s : State) (before after p : List Byte) (t k : Word),
      s.ibuf = before ++ frameBytes t p k ++ after ∧ s.cur = before.length ∧ p.length ≤ 4294967295 ∧
        k ≠ crc32 (be32 t ++ p) :=
  ⟨{ State.reset with ibuf := [] ++ frameBytes 0 [] 0 ++ [] }, [], [], [], 0, 0, rfl, rfl, by decide,
    by decide +kernel⟩

/-- A frame that ends with `IBUF`. -/
theorem witness_TheCursorStaysInsideTheBuffer :
    ∃ s t : State, exec .chParse s = .next t ∧ t.status = 0 := by
  have h : chunkParse tagCheckOnParse (fromCursor { State.reset with ibuf := chunkSer cTest }) =
      .ok (cTest, 15) := by
    rw [fromCursor_append (before := []) (rest := chunkSer cTest ++ []) (by simp) rfl]
    exact chunkParse_good [] cTest_ok fun _ => by decide
  exact ⟨{ State.reset with ibuf := chunkSer cTest }, _, by simp only [exec, execChParse, h]; rfl, rfl⟩

theorem witness_ChSerWritesTheFrame :
    State.reset.w.v = false ∧ ({ State.reset with w := WorkReg.ofChunk cTest } : State).w.v = true :=
  ⟨rfl, rfl⟩

/-- A text of two characters, and a payload that is no text. -/
theorem witness_ChTxtGivesUtf8Text :
    (∃ s : State, s.w.v = true ∧
      ∃ cs : List (List Byte), s.w.pay = cs.flatten ∧ (∀ c ∈ cs, isUtf8Char c) ∧ cs.length = 2) ∧
    (∃ s : State, s.w.v = true ∧
      ¬ ∃ cs : List (List Byte), s.w.pay = cs.flatten ∧ ∀ c ∈ cs, isUtf8Char c) := by
  refine ⟨⟨{ State.reset with w := WorkReg.ofChunk { cTest with pay := [0x68#8, 0xC3#8, 0xA9#8] } }, rfl,
    [[0x68#8], [0xC3#8, 0xA9#8]], rfl, ?_, rfl⟩,
    ⟨{ State.reset with w := WorkReg.ofChunk { cTest with pay := [0xFF#8] } }, rfl, ?_⟩⟩
  · intro c hc
    simp only [List.mem_cons, List.not_mem_nil, or_false] at hc
    rcases hc with rfl | rfl
    · exact ⟨[(0x00, 0x7F)], by decide, .cons (by decide) .nil⟩
    · exact ⟨[(0xC2, 0xDF), (0x80, 0xBF)], by decide, .cons (by decide) (.cons (by decide) .nil)⟩
  · rintro ⟨cs, h, hc⟩
    have hr : ∀ c ∈ cs, c = [] := by
      intro c hm
      obtain ⟨row, hrow, hf⟩ := hc c hm
      cases hf with
      | nil => rfl
      | cons hb _ =>
        rename_i b r _ _ _
        have hb' : b = 0xFF#8 := by
          have := List.mem_flatten.mpr ⟨_, hm, List.mem_cons_self⟩
          rw [← h] at this
          simpa using this
        have := utf8Follow_of_row hrow hb
        rw [hb'] at this
        exact absurd this (by simp [utf8Follow])
    rw [List.flatten_eq_nil_iff.mpr hr] at h
    cases h

theorem witness_ChunkParseInvertsSerialize :
    chunkOk cTest ∧ fourLetters (be32 cTest.tag) ∧ chunkOk cLongest ∧
    (∃ c, chunkOk c ∧ ¬ fourLetters (be32 c.tag)) ∧
    chunkParse true (fTest ++ [1#8]) = .ok (cTest, 15) ∧
    ((WorkReg.ofChunk cTest).v = true ∧ chunkOk (WorkReg.ofChunk cTest).chunk ∧
      (Config.TAG_CHECK_ON_PARSE = true → fourLetters (be32 (WorkReg.ofChunk cTest).tag))) :=
  ⟨cTest_ok, letters_test, cLongest_ok,
    ⟨{ tag := 0, pay := [], crc := crc32 (be32 0 ++ []) }, ⟨rfl, by decide⟩, not_letters_zero⟩,
    by decide +kernel, rfl, cTest_ok, fun _ => letters_test⟩

theorem witness_EveryFlippedBitIsAChecksumMismatch :
    chunkOk cTest ∧ 4 ≤ 4 ∧ 14 < 12 + cTest.pay.length ∧ 7 < 8 := ⟨cTest_ok, by decide⟩

theorem witness_CtParseReadsTheWholeStream :
    ∃ (s : State) (q : List Chunk),
      s.ibuf = be32 (Config.SIG.extractLsb' 32 32) ++ be32 (Config.SIG.extractLsb' 0 32) ++
        (q.map fun c => frameBytes c.tag c.pay c.crc).flatten ∧
      (∀ c ∈ q, chunkOk c) ∧
      (Config.TAG_CHECK_ON_PARSE = true → ∀ c ∈ q, fourLetters (be32 c.tag)) ∧ q.length = 2 :=
  ⟨{ State.reset with ibuf := contSer sigBytes [cTest, cHello] }, [cTest, cHello], rfl,
    fun _ h => (good_chunks h).1, fun _ _ h => (good_chunks h).2, rfl⟩

/-- Seven bytes, and eight bytes that are not the signature whatever that is. -/
theorem witness_CtParseChecksTheSignatureFirst :
    (∃ s : State, s.ibuf.length < 8 ∧ s.ibuf.length = 7) ∧
    (∃ s : State, 8 ≤ s.ibuf.length ∧ s.ibuf.length = 8 ∧
      s.ibuf.take 8 ≠ be32 (Config.SIG.extractLsb' 32 32) ++ be32 (Config.SIG.extractLsb' 0 32)) := by
  refine ⟨⟨{ State.reset with ibuf := List.replicate 7 0#8 }, by decide, rfl⟩,
    ⟨{ State.reset with ibuf := flipBit sigBytes 0 0 }, by simp, by simp, ?_⟩⟩
  intro h
  have h' : flipBit sigBytes 0 0 = sigBytes := by
    rw [← List.take_of_length_le (i := 8) (l := flipBit sigBytes 0 0) (by simp)]
    exact h
  have := congrArg (fun l : List Byte => (l.headD 0).getLsbD 0) h'
  simp [flipBit, sigBytes, sigBytesOf, be32] at this

/-- A cut frame behind a good one. -/
theorem witness_CtParseReportsTheFirstBadFrame :
    ∃ (s : State) (q : List Chunk) (bad : List Byte) (f : FrameFail),
      s.ibuf = sigBytes ++ (q.map chunkSer).flatten ++ bad ∧ (∀ c ∈ q, chunkOk c) ∧
      (Config.TAG_CHECK_ON_PARSE = true → ∀ c ∈ q, fourLetters (be32 c.tag)) ∧ bad ≠ [] ∧
      chunkParse Config.TAG_CHECK_ON_PARSE bad = .error f ∧ q.length = 2 :=
  ⟨{ State.reset with ibuf := sigBytes ++ ([cTest, cHello].map chunkSer).flatten ++ [0#8] },
    [cTest, cHello], [0#8], { kind := .truncatedInput, tag := none }, rfl, fun _ h => (good_chunks h).1,
    fun _ _ h => (good_chunks h).2, by decide, chunkParse_short (by decide), rfl⟩

theorem witness_ContainerParseInvertsSerialize :
    sigDefault.length = 8 ∧ (∀ c ∈ [cTest, cHello], chunkOk c) ∧
      (∀ c ∈ [cTest, cHello], fourLetters (be32 c.tag)) ∧
      contParse sigDefault true (sigDefault ++ fTest ++ fHello) = .ok [cTest, cHello] :=
  ⟨rfl, fun _ h => (good_chunks h).1, fun _ h => (good_chunks h).2, test_contParse⟩

theorem witness_CtNewEmptiesAndCtAppAppends :
    State.reset.w.v = false ∧ ({ State.reset with w := WorkReg.ofChunk cTest } : State).w.v = true :=
  ⟨rfl, rfl⟩

/-- The second entry is the first match; no entry matches. -/
theorem witness_CtFindFindsTheFirstMatch :
    [cTest, cHello, cHello] = [cTest] ++ cHello :: [cHello] ∧
      (∀ d ∈ [cTest], be32 d.tag ≠ [0x72#8, 0x75#8, 0x53#8, 0x74#8]) ∧
      be32 cHello.tag = [0x72#8, 0x75#8, 0x53#8, 0x74#8] ∧
      (∀ d ∈ [cTest], be32 d.tag ≠ [0x54#8, 0x45#8, 0x53#8]) := by decide

theorem witness_CtRemRemovesTheFirstMatch :
    [cTest, cHello, cHello] = [cTest] ++ cHello :: [cHello] ∧
      (∀ d ∈ [cTest], be32 d.tag ≠ [0x72#8, 0x75#8, 0x53#8, 0x74#8]) ∧
      be32 cHello.tag = [0x72#8, 0x75#8, 0x53#8, 0x74#8] ∧
      (∀ d ∈ [cTest], d.tag ≠ 0x72755374#32) ∧ ([] : List Byte).length ≠ 4 := by decide

/-- A failure. -/
theorem witness_AFailureChangesOnlyTheStatusRegisters :
    ∃ t, exec (.ctRem []) State.reset = .next t ∧ t.status ≠ 0 := ⟨_, rfl, by decide⟩

/-- A success after a failure. -/
theorem witness_ASuccessNamesNothing :
    ∃ t, exec .ctNew { State.reset with status := 6, eval := 2, etag := 5 } = .next t ∧ t.status = 0 :=
  ⟨_, rfl, rfl⟩

theorem witness_EachCommandRaisesOnlyItsKinds :
    ∃ t, exec .ctParse State.reset = .next t ∧ t.status = 1 := ⟨_, rfl, rfl⟩

theorem witness_EachRegisterHasOnlyItsWriters :
    ∃ t, exec (.tagLdb 1 2 3 4) State.reset = .next t ∧ t.tag ≠ State.reset.tag := ⟨_, rfl, by decide⟩

theorem chNew_fails {p : List Byte} (h : 4294967295 < p.length) :
    ∃ s t, exec .chNew s = .next t ∧ t.status ≠ 0 := by
  have h' : ({ State.reset with pbuf := p } : State).pbuf.length > Config.MAX_PAYLOAD := h
  exact ⟨{ State.reset with pbuf := p }, _, by simp only [exec, execChNew, chunkNew, if_pos h']; rfl,
    failed_status_ne_zero _ _ _ _⟩

/-- A failure of each of the commands that fail; for a parse one below and one above 8 bytes. -/
theorem witness_EachFailureNamesItsItem :
    (∃ t, exec (.tagLdt []) State.reset = .next t ∧ t.status ≠ 0) ∧
    (∃ s t, exec .chNew s = .next t ∧ t.status ≠ 0) ∧
    (∃ t, exec .chTxt { State.reset with w := WorkReg.ofChunk { cTest with pay := [0xFF#8] } } = .next t ∧
      t.status ≠ 0) ∧
    (∃ t, exec (.ctRem [1, 2, 3, 4]) State.reset = .next t ∧ t.status ≠ 0) ∧
    (∃ t, exec (.ctRem []) State.reset = .next t ∧ t.status ≠ 0) ∧
    (∃ t, exec .chParse { State.reset with ibuf := List.replicate 7 1#8 } = .next t ∧ t.status ≠ 0) ∧
    (∃ t, exec .chParse { State.reset with ibuf := List.replicate 8 1#8 } = .next t ∧ t.status ≠ 0) ∧
    (∃ t, exec .ctParse { State.reset with ibuf := List.replicate 7 1#8 } = .next t ∧ t.status ≠ 0) ∧
    (∃ s t, exec .ctParse s = .next t ∧ t.status ≠ 0 ∧ 8 ≤ s.ibuf.length ∧ t.status ≠ 2) := by
  refine ⟨?_, chNew_fails (lt_length_cons 0#8 longest_length), ?_, ?_, ?_, ?_, ?_, ?_, ?frame⟩
  case frame =>
    have h : contParse sigBytes tagCheckOnParse (sigBytes ++ [0#8]) =
        .error { kind := .truncatedInput, offset := 8, tag := none } := by
      rw [contParse_sig _ rfl]
      exact contFrames_bad (q := []) (by simp) (by simp) (by simp) (chunkParse_short (by decide)) (by simp)
    exact ⟨{ State.reset with ibuf := sigBytes ++ [0#8] }, _,
      by simp only [exec, execCtParse, h]; rfl, by decide, by simp, by decide⟩
  all_goals exact ⟨_, rfl, by decide⟩

theorem witness_ResultsNeverInfluenceACommand :
    sameButResults State.reset { State.reset with obuf := [1#8], idx := 4, crco := 7, status := 3 } := rfl

/-- A state that satisfies the chunk invariant with a chunk in `W` and one in `CSEQ`, about to append. -/
theorem witness_EveryStepKeepsTheChunkInvariant :
    ∃ s t : State, s.chunksOk ∧ step s = .next t ∧ t.cseq.length = 2 :=
  ⟨{ State.reset with w := WorkReg.ofChunk cTest, cseq := [cHello], inputs := [.command [0x43#8]] }, _,
    ⟨fun _ => cTest_ok, fun c hc => by rw [List.mem_singleton.mp hc]; exact cHello_ok⟩, rfl, rfl⟩

theorem witness_EveryStepKeepsTheReportLegal :
    ∃ s t : State, s.reportOk ∧ step s = .next t ∧ t.status = 6 :=
  ⟨presenting (.command [0x45#8, 0x00#8]), _,
    ⟨Nat.zero_le _, fun _ => rfl, fun _ => rfl, fun _ => rfl⟩, rfl, rfl⟩

theorem witness_EveryStepKeepsWSound :
    ∃ s t : State, s.workOk ∧ step s = .next t ∧ s.w.v = false :=
  ⟨presenting (.command [0x42#8]), _, fun _ => rfl, rfl, rfl⟩

theorem witness_ResetReplacesTheWholeState :
    ({ State.reset with tag := 5, inputs := [.reset] } : State).inputs = .reset :: [] := rfl

theorem witness_HostWritesChangeOnlyTheirTarget :
    (presenting (.access (.loadIbuf [1#8]))).inputs = .access (.loadIbuf [1#8]) :: [] ∧
      (presenting (.access (.loadPbuf []))).inputs = .access (.loadPbuf []) :: [] ∧
      (presenting (.access (.setCur 0xFFFFFFFFFFFFFFFF#64))).inputs =
        .access (.setCur 0xFFFFFFFFFFFFFFFF#64) :: [] := ⟨rfl, rfl, rfl⟩

theorem witness_CommandsRightAfterReset : ¬ needsChunk .ctNew := by simp [needsChunk]

theorem witness_HostReadsGiveEveryRegister :
    (ReadTarget.fl, 9) ∈ [(ReadTarget.fl, 1 + 0 + 0 + 8)] ∧
      (presenting (.access (.read .fl))).inputs = .access (.read .fl) :: [] := ⟨by decide, rfl⟩

theorem witness_HostReadsChangeNothing :
    (presenting (.access (.read .crco))).inputs = .access (.read .crco) :: [] := rfl

/-- A whole space, a byte too many, the last entry, and the entry behind it. -/
theorem witness_HostReadsAreBounded :
    spaceBytes { State.reset with obuf := [1#8, 2#8] } .obuf = some ([] ++ [1#8, 2#8] ++ []) ∧
    (spaceBytes { State.reset with obuf := [1#8, 2#8] } .obuf = some [1#8, 2#8] ∧ [1#8, 2#8].length < 3 ∧
      1 < 2) ∧
    (({ State.reset with cseq := [cTest] } : State).cseq[0]? = some cTest ∧
      (ReadTarget.cseqLen 0, 3) ∈ [(ReadTarget.cseqTag 0, cTest.tag.toNat),
        (.cseqLen 0, cTest.pay.length), (.cseqCrc 0, cTest.crc.toNat)]) ∧
    (({ State.reset with cseq := [cTest] } : State).cseq.length ≤ 1 ∧
      ReadTarget.cseqTag 1 ∈ [ReadTarget.cseqTag 1, .cseqLen 1, .cseqCrc 1, .bytes (.cseqPay 1) 0 0]) := by
  decide

theorem witness_EmbedAppendsOneFrame :
    contParse sigBytes Config.TAG_CHECK_ON_PARSE (contSer sigBytes [cTest, cHello]) =
      .ok [cTest, cHello] ∧
    be32 0x72755374#32 = [0x72#8, 0x75#8, 0x53#8, 0x74#8] ∧
    fourLetters [0x72#8, 0x75#8, 0x53#8, 0x74#8] ∧ longest.length ≤ 4294967295 :=
  ⟨two_chunks_parse, rfl, letters_hello, Nat.le_of_eq longest_length⟩

theorem witness_ExtractGivesTheFirstPayload :
    (contParse sigBytes Config.TAG_CHECK_ON_PARSE (contSer sigBytes [cTest, cHello]) =
        .ok ([cTest] ++ cHello :: []) ∧
      (∀ d ∈ [cTest], be32 d.tag ≠ [0x72#8, 0x75#8, 0x53#8, 0x74#8]) ∧
      be32 cHello.tag = [0x72#8, 0x75#8, 0x53#8, 0x74#8]) ∧
    (contParse sigBytes Config.TAG_CHECK_ON_PARSE (contSer sigBytes [cTest, cHello]) =
        .ok [cTest, cHello] ∧ ([] : List Byte).length ≤ 255 ∧
      ∀ d ∈ [cTest, cHello], be32 d.tag ≠ []) :=
  ⟨⟨two_chunks_parse, by decide, rfl⟩, two_chunks_parse, by decide, by decide⟩

theorem witness_ExtractUndoesEmbed :
    contParse sigBytes Config.TAG_CHECK_ON_PARSE (contSer sigBytes []) = .ok [] ∧
    (∀ d ∈ ([] : List Chunk), be32 d.tag ≠ [0x72#8, 0x75#8, 0x53#8, 0x74#8]) ∧
    fourLetters [0x72#8, 0x75#8, 0x53#8, 0x74#8] ∧ cHello.pay.length ≤ 4294967295 ∧
    utf8Valid cHello.pay = true :=
  ⟨empty_stream_parses, by decide, letters_hello, by decide, by decide⟩

theorem witness_DeleteCutsTheFirstFrame :
    (contParse sigBytes Config.TAG_CHECK_ON_PARSE (contSer sigBytes [cTest, cHello]) =
        .ok ([] ++ cTest :: [cHello]) ∧
      (∀ d ∈ ([] : List Chunk), be32 d.tag ≠ [0x54#8, 0x45#8, 0x53#8, 0x54#8]) ∧
      be32 cTest.tag = [0x54#8, 0x45#8, 0x53#8, 0x54#8]) ∧
    (contParse sigBytes Config.TAG_CHECK_ON_PARSE (contSer sigBytes []) = .ok [] ∧
      (List.replicate 255 0#8).length ≤ 255 ∧
      ∀ d ∈ ([] : List Chunk), be32 d.tag ≠ List.replicate 255 0#8) :=
  ⟨⟨two_chunks_parse, by decide, rfl⟩, empty_stream_parses, Nat.le_of_eq List.length_replicate,
    fun _ h => absurd h List.not_mem_nil⟩

theorem witness_RenderListsEveryChunk :
    contParse sigBytes Config.TAG_CHECK_ON_PARSE (contSer sigBytes [cTest, cHello]) =
      .ok [cTest, cHello] := two_chunks_parse

theorem witness_UseCasesStopAtAFailedParse :
    contParse sigBytes Config.TAG_CHECK_ON_PARSE [0#8] =
      .error { kind := .truncatedInput, offset := 0, tag := none } := rfl

end Sys2Proof.Tests
end

section
/-! The step on a presented command string: one equation for each of the stages it passes through (the
queue, the decoder), and the command's `exec` at the end of them. -/

namespace Sys2Proof.Machine

/-- The step takes the first input from the queue and performs it (R5). -/
theorem step_of_inputs_cons {s : State} {e : Input} {rest : List Input} (h : s.inputs = e :: rest) :
    step s = perform e { s with inputs := rest } := by
  simp [step, h]

@[simp] theorem perform_command (bs : List Byte) (s : State) :
    perform (.command bs) s = issueCommand bs s := rfl

/-- A string that decodes is issued as its command (R76, R59). -/
theorem issueCommand_of_decode_ok {bs : List Byte} {i : Instr} (h : decode bs = .ok i) (s : State) :
    issueCommand bs s = exec i s := by
  simp [issueCommand, h]

/-- Settles O6: the queue hands the string on, and issuing a string that decodes is `exec`. -/
theorem stepRunsTheDecodedCommand : Obligations.StepRunsTheDecodedCommand := by
  intro s bs rest i hinputs hdecode
  calc step s = perform (.command bs) { s with inputs := rest } := step_of_inputs_cons hinputs
    _ = issueCommand bs { s with inputs := rest } := perform_command bs _
    _ = exec i { s with inputs := rest } := issueCommand_of_decode_ok hdecode _

end Sys2Proof.Machine
end

section
/-! The frame of the commands (R21 to R33) and the three step invariants: how a command ends, which
commands write which piece of the state, and one induction step for every predicate of the state that the
host's accesses cannot touch. -/

namespace Sys2Proof.Machine

variable {s t : State} {i : Instr}

/-! ### The end of a command (R189, R190) -/

/-- A command that answers a state has recorded its success in it, or has only recorded a failure. -/
theorem exec_next_ends (h : exec i s = .next t) :
    (∃ u : State, t = u.succeeded) ∨ ∃ k off tag, t = s.failed k off tag := by
  obtain ⟨u, hu⟩ | ⟨k, off, tag, hf⟩ | ⟨hr, -⟩ := exec_shape i s
  · exact .inl ⟨u, done_eq_next.mp (hu ▸ h)⟩
  · exact .inr ⟨k, off, tag, raise_eq_next.mp (hf ▸ h)⟩
  · exact absurd (hr ▸ h) refuse_ne_next

/-! ### The writers of each piece of the state (R21, R22, R24 to R28, R31, R33) -/

/-- Settles O42, command by command: the inversion lemma of a command names every field it writes. -/
theorem eachRegisterHasOnlyItsWriters : Obligations.EachRegisterHasOnlyItsWriters := by
  intro i s t h
  cases i with
  | tagLdt text => obtain ⟨-, -, rfl⟩ | ⟨-, rfl⟩ := execTagLdt_next h <;> simp
  | chNew => obtain ⟨-, rfl⟩ | ⟨-, rfl⟩ := execChNew_next h <;> simp
  | chParse => obtain ⟨c, size, -, rfl⟩ | ⟨f, -, rfl⟩ := execChParse_next h <;> simp
  | chSer =>
    obtain ⟨-, rfl⟩ := execChSer_next h
    simp
  | chTxt => obtain ⟨-, ⟨-, rfl⟩ | ⟨-, rfl⟩⟩ := execChTxt_next h <;> simp
  | ctParse => obtain ⟨q, -, rfl⟩ | ⟨f, -, rfl⟩ := execCtParse_next h <;> simp
  | ctApp =>
    obtain ⟨-, rfl⟩ := execCtApp_next h
    simp
  | ctFind key =>
    obtain ⟨j, c, -, rfl⟩ | ⟨-, rfl⟩ := execCtFind_next h <;> simp [State.writeHit]
  | ctRem key => obtain ⟨j, c, -, rfl⟩ | ⟨-, rfl⟩ := execCtRem_next h <;> simp
  | _ =>
    obtain rfl := done_eq_next.mp h
    simp [State.writeP, State.writeCmp]

/-- The writers of `W` (R22). -/
theorem w_writer (h : exec i s = .next t) (hw : t.w ≠ s.w) :
    i = .chNew ∨ i = .chParse ∨ (∃ key, i = .ctFind key) ∨ ∃ key, i = .ctRem key := by
  obtain ⟨-, writers, -⟩ := eachRegisterHasOnlyItsWriters i s t h
  exact writers hw

/-- The writers of the container (R31). -/
theorem cseq_writer (h : exec i s = .next t) (hq : t.cseq ≠ s.cseq) :
    i = .ctNew ∨ i = .ctParse ∨ i = .ctApp ∨ ∃ key, i = .ctRem key := by
  obtain ⟨-, -, -, -, -, -, -, -, -, -, writers, -⟩ := eachRegisterHasOnlyItsWriters i s t h
  exact writers hq

/-! ### The step, once for every invariant -/

/-- A predicate that holds after reset, that every command keeps, and that reads nothing a host access
writes, is kept by every step (R5). -/
theorem step_keeps {P : State → Prop}
    (hhost : ∀ (s : State) ibuf pbuf cur inputs delivered, P s → P { s with
      ibuf := ibuf, pbuf := pbuf, cur := cur, inputs := inputs, delivered := delivered })
    (hreset : P State.reset)
    (hexec : ∀ i s t, P s → exec i s = .next t → P t)
    (hs : P s) (h : step s = .next t) : P t := by
  obtain ⟨-, rfl⟩ | ⟨e, rest, -, hcases⟩ := step_cases h
  · exact hs
  obtain ⟨_, i, -, -, hi⟩ | ⟨_, rfl⟩ | ⟨_, rfl⟩ | ⟨_, rfl⟩ | ⟨_, rfl⟩ | rfl := hcases
  · exact hexec i _ t (hhost _ _ _ _ rest _ hs) hi
  · exact hhost _ _ _ _ _ _ hs
  · exact hhost _ _ _ _ _ _ hs
  · exact hhost _ _ _ _ _ _ hs
  · exact hhost _ _ _ _ _ _ hs
  · exact hhost _ _ _ _ _ _ hreset

/-- A success is a legal report (R189). -/
theorem succeeded_reportOk (s : State) : s.succeeded.reportOk :=
  ⟨Nat.zero_le 6, fun _ => rfl, fun _ => rfl, fun _ => rfl⟩

/-- Settles O47: `W` and the container are empty, and the report is that of a success. -/
theorem theInvariantsHoldAfterReset : Obligations.TheInvariantsHoldAfterReset :=
  ⟨⟨fun h => absurd h Bool.false_ne_true, fun _ h => absurd h List.not_mem_nil⟩,
    succeeded_reportOk State.reset, fun _ => rfl⟩

/-! ### The chunk invariant (R23) -/

/-- A chunk that the lookup finds is in the container (R159). -/
theorem mem_of_findFirst {q : List Chunk} {key : List Byte} {j : Nat} {c : Chunk}
    (h : findFirst q key = some (j, c)) : c ∈ q := by
  obtain ⟨before, after, rfl, -⟩ := findFirst_some h
  simp

/-- Removal adds no chunk (R165). -/
theorem mem_of_mem_removeAt {q : List Chunk} {j : Nat} {c : Chunk} (h : c ∈ removeAt q j) : c ∈ q :=
  (List.mem_append.mp h).elim List.mem_of_mem_take List.mem_of_mem_drop

/-- A chunk that a command puts into `W` satisfies the invariant: it is built from `TAG` and `PBUF`, it is
a parsed frame, or it comes from the container (R23, R140, R141, R164, R165). -/
theorem chunkOk_of_w_written (hq : ∀ c ∈ s.cseq, chunkOk c) (h : exec i s = .next t) (hw : t.w ≠ s.w) :
    chunkOk t.w.chunk := by
  obtain rfl | rfl | ⟨key, rfl⟩ | ⟨key, rfl⟩ := w_writer h hw
  · obtain ⟨hp, rfl⟩ | ⟨-, rfl⟩ := execChNew_next h
    · exact ⟨rfl, hp⟩
    · exact absurd rfl hw
  · obtain ⟨c, size, hc, rfl⟩ | ⟨f, -, rfl⟩ := execChParse_next h
    · obtain ⟨_, -, -, hok, -⟩ := chunkParse_ok hc
      exact hok
    · exact absurd rfl hw
  · obtain ⟨j, c, hc, rfl⟩ | ⟨-, rfl⟩ := execCtFind_next h
    · exact hq c (mem_of_findFirst hc)
    · exact absurd rfl hw
  · obtain ⟨j, c, hc, rfl⟩ | ⟨-, rfl⟩ := execCtRem_next h
    · exact hq c (mem_of_findFirst hc)
    · exact absurd rfl hw

/-- A container that a command writes holds good chunks only: none, those of a parsed stream, the old ones
and the one of `W`, or some of the old ones (R23, R160, R161, R163, R165). -/
theorem chunkOk_of_cseq_written (hs : s.chunksOk) (h : exec i s = .next t) (hq : t.cseq ≠ s.cseq) :
    ∀ c ∈ t.cseq, chunkOk c := by
  obtain ⟨hwork, hold⟩ := hs
  obtain rfl | rfl | rfl | ⟨key, rfl⟩ := cseq_writer h hq
  · obtain rfl := done_eq_next.mp h
    simp
  · obtain ⟨q, hparse, rfl⟩ | ⟨f, -, rfl⟩ := execCtParse_next h
    · obtain ⟨-, hok, -⟩ := contParse_ok hparse
      exact hok
    · exact absurd rfl hq
  · obtain ⟨hv, rfl⟩ := execCtApp_next h
    exact List.forall_mem_append.mpr ⟨hold, List.forall_mem_singleton.mpr (hwork hv)⟩
  · obtain ⟨j, c, -, rfl⟩ | ⟨-, rfl⟩ := execCtRem_next h
    · exact fun d hd => hold d (mem_of_mem_removeAt hd)
    · exact absurd rfl hq

/-- Every command keeps the chunk invariant: of `W` and of the container, what it does not write was good
before and what it writes is good (R23). -/
theorem exec_keeps_chunksOk (hs : s.chunksOk) (h : exec i s = .next t) : t.chunksOk := by
  constructor
  · intro hv
    by_cases hw : t.w = s.w
    · exact hw ▸ hs.left (hw ▸ hv)
    · exact chunkOk_of_w_written hs.right h hw
  · by_cases hq : t.cseq = s.cseq
    · exact hq ▸ hs.right
    · exact chunkOk_of_cseq_written hs h hq

/-- Settles O44: the invariant holds after reset, every command keeps it, and no host access writes `W` or
the container. -/
theorem everyStepKeepsTheChunkInvariant : Obligations.EveryStepKeepsTheChunkInvariant := by
  intro s t hs h
  obtain ⟨hreset, -⟩ := theInvariantsHoldAfterReset
  exact step_keeps (P := State.chunksOk) (fun _ _ _ _ _ _ hs => hs) hreset
    (fun _ _ _ => exec_keeps_chunksOk) hs h

/-! ### The report (R29, R187, R189) -/

/-- Bit 0 of `EVAL` is about `EOFF` (R29). -/
theorem evalBits_getLsbD_zero (hasOff hasTag : Bool) : (evalBits hasOff hasTag).getLsbD 0 = hasOff := by
  cases hasOff <;> cases hasTag <;> rfl

/-- Bit 1 of `EVAL` is about `ETAG` (R29). -/
theorem evalBits_getLsbD_one (hasOff hasTag : Bool) : (evalBits hasOff hasTag).getLsbD 1 = hasTag := by
  cases hasOff <;> cases hasTag <;> rfl

/-- A failure records a legal report, whatever it names (R187). -/
theorem failed_reportOk (k : FailKind) (off : Option Nat) (tag : Option Word) (s : State) :
    (s.failed k off tag).reportOk := by
  refine ⟨code_le_six k, fun h => absurd h (code_ne_zero k), fun h => ?_, fun h => ?_⟩
  · rw [failed_eval, evalBits_getLsbD_zero] at h
    cases off with
    | none => rfl
    | some o => cases h
  · rw [failed_eval, evalBits_getLsbD_one] at h
    cases tag with
    | none => rfl
    | some v => cases h

/-- Every command leaves a legal report, whatever stood there before (R189, R190). -/
theorem exec_reportOk (h : exec i s = .next t) : t.reportOk := by
  obtain ⟨u, rfl⟩ | ⟨k, off, tag, rfl⟩ := exec_next_ends h
  · exact succeeded_reportOk u
  · exact failed_reportOk k off tag s

/-- Settles O45: only commands and reset write the status registers. -/
theorem everyStepKeepsTheReportLegal : Obligations.EveryStepKeepsTheReportLegal := by
  intro s t hs h
  obtain ⟨-, hreset, -⟩ := theInvariantsHoldAfterReset
  exact step_keeps (P := State.reportOk) (fun _ _ _ _ _ _ hs => hs) hreset
    (fun _ _ _ _ => exec_reportOk) hs h

end Sys2Proof.Machine
end

section
/-! What a command reads (R24 to R26, R28, R29, R33): nothing of `CRCR` and `CRCO` outside the checksum
generator, and nothing of what the block holds only as results for the host. In both proofs a command with
cases branches on the same value from both states, and each branch ends in the same way. -/

namespace Sys2Proof.Machine

/-- The cursor names what is left of `IBUF` behind it, nothing when it stands beyond the end (R141). -/
theorem fromCursor_eq_drop (s : State) : fromCursor s = s.ibuf.drop s.cur := by
  unfold fromCursor
  split
  · simp [slice]
  · rw [List.drop_of_length_le (by omega)]

/-! ### `CRCR` and `CRCO` (R24, R25, R108) -/

/-- The outcome with other values in the registers of the checksum generator, if it is a state. -/
def outcomeWithCrc (a b : Word) : Host.Outcome State Fault Refusal →
    Host.Outcome State Fault Refusal
  | .next t => .next { t with crcr := a, crco := b }
  | .fault f => .fault f
  | .refused r => .refused r

/-- The commands of the tag, chunk and container units neither change nor read `CRCR` and `CRCO` (R108). -/
theorem exec_with_crc {i : Instr} (hinit : i ≠ .crcInit) (hupd : ∀ d, i ≠ .crcUpd d) (hfin : i ≠ .crcFin)
    (a b : Word) (s : State) :
    exec i { s with crcr := a, crco := b } = outcomeWithCrc a b (exec i s) := by
  cases i with
  | crcInit => exact absurd rfl hinit
  | crcUpd d => exact absurd rfl (hupd d)
  | crcFin => exact absurd rfl hfin
  | tagLdt text =>
    simp only [exec, execTagLdt]
    split
    · rfl
    · split <;> rfl
  | chNew =>
    simp only [exec, execChNew]
    cases chunkNew s.tag s.pbuf <;> rfl
  | chParse =>
    simp only [exec, execChParse, fromCursor_eq_drop]
    cases chunkParse tagCheckOnParse (s.ibuf.drop s.cur) <;> rfl
  | chSer =>
    simp only [exec, execChSer]
    split <;> rfl
  | chTxt =>
    simp only [exec, execChTxt]
    split
    · split <;> rfl
    · rfl
  | ctParse =>
    simp only [exec, execCtParse]
    cases contParse sigBytes tagCheckOnParse s.ibuf <;> rfl
  | ctApp =>
    simp only [exec, execCtApp]
    split <;> rfl
  | ctFind key =>
    simp only [exec, execCtFind]
    cases findFirst s.cseq key <;> rfl
  | ctRem key =>
    simp only [exec, execCtRem]
    cases findFirst s.cseq key <;> rfl
  | _ => rfl

/-- Settles O14: other values in `CRCR` and `CRCO` pass through the command. -/
theorem otherCommandsIgnoreTheCrcRegisters : Obligations.OtherCommandsIgnoreTheCrcRegisters := by
  intro i s a b hinit hupd hfin
  refine (exec_with_crc hinit hupd hfin a b s).trans ?_
  cases exec i s <;> rfl

/-! ### The results for the host (R25, R26, R28, R29, R33) -/

/-- Two states that differ at most in the results, as an update of the first by any results. -/
theorem sameButResults_iff {s s' : State} : sameButResults s s' ↔
    ∃ fl status eoff etag eval obuf crco idx, s' = { s with
      fl := fl, status := status, eoff := eoff, etag := etag, eval := eval,
      obuf := obuf, crco := crco, idx := idx } := by
  constructor
  · exact fun h => ⟨_, _, _, _, _, _, _, _, h⟩
  · rintro ⟨fl, status, eoff, etag, eval, obuf, crco, idx, rfl⟩
    rfl

/-- Two outcomes of one command that differ at most in the results, with the same report (R29). -/
def agreeButResults (o o' : Host.Outcome State Fault Refusal) : Prop :=
  match o with
  | .next t => ∃ t', o' = .next t' ∧ sameButResults t t' ∧
      t'.status = t.status ∧ t'.eval = t.eval ∧ t'.eoff = t.eoff ∧ t'.etag = t.etag
  | .fault f => o' = .fault f
  | .refused r => o' = .refused r

/-- A completion writes the same report over both states (R189). -/
theorem agreeButResults_done {u u' : State} (h : sameButResults u u') :
    agreeButResults (done u) (done u') := by
  obtain ⟨_, _, _, _, _, _, _, _, rfl⟩ := sameButResults_iff.mp h
  exact ⟨_, rfl, rfl, rfl, rfl, rfl, rfl⟩

/-- One failure raised from both states writes the same report over both (R190). -/
theorem agreeButResults_raise {k : FailKind} {off : Option Nat} {tag : Option Word} {s s' : State}
    (h : sameButResults s s') : agreeButResults (raise k off tag s) (raise k off tag s') := by
  obtain ⟨_, _, _, _, _, _, _, _, rfl⟩ := sameButResults_iff.mp h
  exact ⟨_, rfl, rfl, rfl, rfl, rfl, rfl⟩

theorem agreeButResults_refuse {r : Refusal} : agreeButResults (refuse r) (refuse r) := rfl

/-- No command reads a result: from states that differ at most there it takes the same branch, and writes
the same values into everything that is no result (R28, R29, R33). -/
theorem exec_agreeButResults (i : Instr) {s s' : State} (h : sameButResults s s') :
    agreeButResults (exec i s) (exec i s') := by
  obtain ⟨_, _, _, _, _, _, _, _, rfl⟩ := sameButResults_iff.mp h
  cases i with
  | tagLdt text =>
    simp only [exec, execTagLdt]
    split
    · exact agreeButResults_raise rfl
    · split
      · exact agreeButResults_raise rfl
      · exact agreeButResults_done rfl
  | chNew =>
    simp only [exec, execChNew]
    cases chunkNew s.tag s.pbuf
    · exact agreeButResults_raise rfl
    · exact agreeButResults_done rfl
  | chParse =>
    simp only [exec, execChParse, fromCursor_eq_drop]
    cases chunkParse tagCheckOnParse (s.ibuf.drop s.cur)
    · exact agreeButResults_raise rfl
    · exact agreeButResults_done rfl
  | chSer =>
    simp only [exec, execChSer]
    split
    · exact agreeButResults_done rfl
    · exact agreeButResults_refuse
  | chTxt =>
    simp only [exec, execChTxt]
    split
    · split
      · exact agreeButResults_done rfl
      · exact agreeButResults_raise rfl
    · exact agreeButResults_refuse
  | ctParse =>
    simp only [exec, execCtParse]
    cases contParse sigBytes tagCheckOnParse s.ibuf
    · exact agreeButResults_raise rfl
    · exact agreeButResults_done rfl
  | ctApp =>
    simp only [exec, execCtApp]
    split
    · exact agreeButResults_done rfl
    · exact agreeButResults_refuse
  | ctFind key =>
    simp only [exec, execCtFind]
    cases findFirst s.cseq key <;> exact agreeButResults_done rfl
  | ctRem key =>
    simp only [exec, execCtRem]
    cases findFirst s.cseq key
    · exact agreeButResults_raise rfl
    · exact agreeButResults_done rfl
  | _ => exact agreeButResults_done rfl

/-- Settles O43: the outcomes of a command from the two states agree but in the results. -/
theorem resultsNeverInfluenceACommand : Obligations.ResultsNeverInfluenceACommand :=
  fun i _ _ h => exec_agreeButResults i h

end Sys2Proof.Machine
end

section
/-! The cursor (R27, R141), the state after reset (R36), and what a host reads of a register (R35). -/

namespace Sys2Proof.Machine

/-! ### The cursor (R27, R141) -/

/-- A frame that the deframer accepts from the cursor on lies inside `IBUF` (R139, R141). -/
theorem frame_at_cursor {s : State} {check : Bool} {c : Chunk} {size : Nat}
    (h : chunkParse check (fromCursor s) = .ok (c, size)) :
    size = 12 + c.pay.length ∧ s.cur + size ≤ s.ibuf.length ∧
      chunkSer c = (s.ibuf.drop s.cur).take size := by
  obtain ⟨after, hbuf, rfl, -⟩ := chunkParse_ok h
  rw [fromCursor_eq_drop] at hbuf
  have hlen := congrArg List.length hbuf
  rw [List.length_drop, List.length_append, chunkSer_length] at hlen
  refine ⟨rfl, by omega, ?_⟩
  rw [hbuf, List.take_left' (chunkSer_length c)]

/-- Settles O25: a parse that succeeds has moved the cursor by the size of the frame it accepted. -/
theorem theCursorStaysInsideTheBuffer : Obligations.TheCursorStaysInsideTheBuffer := by
  intro s t h hstatus
  obtain ⟨c, size, hparse, rfl⟩ | ⟨f, -, rfl⟩ := execChParse_next h
  · obtain ⟨rfl, hinside, hframe⟩ := frame_at_cursor hparse
    exact ⟨(Nat.add_assoc ..).symm, hinside, rfl, hframe⟩
  · exact absurd hstatus (code_ne_zero f.kind)

/-! ### Reset (R36) -/

/-- Settles O48: each value is read off the definition. -/
theorem resetGivesTheStatedValues : Obligations.ResetGivesTheStatedValues := by
  refine ⟨?_, ?_, ?_, ?_, ?_, ?_, ?_, ?_, ?_, ?_, ?_, ?_, ?_, ?_, ?_, ?_, ?_, ?_⟩ <;> rfl

/-! ### Reads of the host (R35) -/

/-- A read that has a value hands it to the host (R35, R55). -/
theorem step_read {s : State} {rest : List Input} {x : ReadTarget} {v : ReadValue}
    (hinputs : s.inputs = .access (.read x) :: rest)
    (hread : readTarget { s with inputs := rest } x = some v) :
    step s = .next { s with inputs := rest, delivered := s.delivered ++ [v] } := by
  rw [step_of_inputs_cons hinputs]
  simp [perform, hostAccess, hostRead, hread]

/-- A flag as a number (R28). -/
theorem bool_toNat_eq_ite (b : Bool) : b.toNat = if b then 1 else 0 := by cases b <;> rfl

/-- `FL` as a number: `P` counts 1, `EQ` 2, `LT` 4, `HIT` 8 (R28). -/
theorem flags_bits_toNat (f : Flags) : f.bits.toNat =
    (if f.p then 1 else 0) + (if f.eq then 2 else 0) + (if f.lt then 4 else 0) +
      if f.hit then 8 else 0 := by
  obtain ⟨p, eq, lt, hit⟩ := f
  revert p eq lt hit
  decide

/-- Settles O53, target by target. -/
theorem hostReadsGiveEveryRegister : Obligations.HostReadsGiveEveryRegister := by
  intro s rest x v hmem hinputs
  refine step_read hinputs ?_
  rw [← flags_bits_toNat] at hmem
  simp only [← bool_toNat_eq_ite] at hmem
  fin_cases hmem <;> rfl

end Sys2Proof.Machine
end

section
/-! The host between two commands: its loads and the cursor write (R27, R33, R55), and how far its reads
reach into a space and into `CSEQ` (R50, R166). -/

namespace Sys2Proof.Machine

/-! ### Writes of the host (R55) -/

@[simp] theorem perform_access (a : HostAccess) (s : State) :
    perform (.access a) s = hostAccess a s := rfl

/-- Settles O51: the step takes the access from the queue, and the access writes its one field. -/
theorem hostWritesChangeOnlyTheirTarget : Obligations.HostWritesChangeOnlyTheirTarget := by
  intro s rest bs v
  refine ⟨fun hinputs => ?_, fun hinputs => ?_, fun hinputs => ?_⟩
  · rw [step_of_inputs_cons hinputs, perform_access, hostAccess, hostLoadIbuf]
  · rw [step_of_inputs_cons hinputs, perform_access, hostAccess, hostLoadPbuf]
  · rw [step_of_inputs_cons hinputs, perform_access, hostAccess, hostSetCur]

/-! ### Reads of the host (R35) -/

/-- A read that has no value is refused (R50, R166). -/
theorem step_read_refused {s : State} {rest : List Input} {x : ReadTarget}
    (hinputs : s.inputs = .access (.read x) :: rest)
    (hread : readTarget { s with inputs := rest } x = none) :
    step s = .refused (.readOutOfRange x) := by
  rw [step_of_inputs_cons hinputs]
  simp [hostAccess, hostRead, hread, refuse]

/-- Settles O52: the target of the read has a value or it has none. -/
theorem hostReadsChangeNothing : Obligations.HostReadsChangeNothing := by
  intro s rest x hinputs
  cases hread : readTarget { s with inputs := rest } x with
  | none => exact .inr (step_read_refused hinputs hread)
  | some v => exact .inl ⟨v, step_read hinputs hread⟩

/-! ### The bounds of a read (R50, R166) -/

/-- A read outside its sequence is not defined (R50). -/
theorem memRead_eq_none {bs : List Byte} {a n : Nat} : memRead bs a n = none ↔ bs.length < a + n := by
  simp [memRead]

/-- The value of a read of a piece that lies inside its space (R50). -/
theorem readTarget_bytes_of_append {s : State} {space : Space} {before piece after : List Byte}
    (hspace : spaceBytes s space = some (before ++ piece ++ after)) :
    readTarget s (.bytes space before.length (before.length + piece.length)) = some (.bytes piece) := by
  have hpiece : memRead (before ++ piece ++ after) before.length piece.length = some piece :=
    memRead_eq_some.mpr ⟨by simp, (slice_append before piece after).symm⟩
  simp only [readTarget, hspace]
  rw [if_pos (Nat.le_add_right ..), Nat.add_sub_cancel_left, hpiece, Option.map_some]

/-- A piece that ends behind its space or before its own start has no value (R50; log entry 14). -/
theorem readTarget_bytes_eq_none {s : State} {space : Space} {content : List Byte} {a b : Nat}
    (hspace : spaceBytes s space = some content) (hout : content.length < b ∨ b < a) :
    readTarget s (.bytes space a b) = none := by
  simp only [readTarget, hspace]
  split
  · rw [memRead_eq_none.mpr (by omega), Option.map_none]
  · rfl

/-- An entry behind the last one has no value (R166). -/
theorem readTarget_cseq_eq_none {s : State} {i a b : Nat} {x : ReadTarget} (hi : s.cseq.length ≤ i)
    (hx : x ∈ [.cseqTag i, .cseqLen i, .cseqCrc i, .bytes (.cseqPay i) a b]) :
    readTarget s x = none := by
  have hnone : s.cseq[i]? = none := List.getElem?_eq_none hi
  fin_cases hx <;> simp [readTarget, spaceBytes, hnone]

/-- The value of a read of a field of an entry (R166). -/
theorem readTarget_cseq_of_getElem? {s : State} {i v : Nat} {c : Chunk} {x : ReadTarget}
    (hc : s.cseq[i]? = some c)
    (hx : (x, v) ∈ [(.cseqTag i, c.tag.toNat), (.cseqLen i, c.pay.length), (.cseqCrc i, c.crc.toNat)]) :
    readTarget s x = some (.number v) := by
  fin_cases hx <;> simp [readTarget, hc]

/-- Settles O54: inside its bounds the target has a value, outside it has none. -/
theorem hostReadsAreBounded : Obligations.HostReadsAreBounded := by
  refine ⟨?_, ?_, ?_, ?_⟩
  · intro s rest space before piece after hspace hinputs
    exact step_read hinputs (readTarget_bytes_of_append hspace)
  · intro s rest space content a b hspace hout hinputs
    exact step_read_refused hinputs (readTarget_bytes_eq_none hspace hout)
  · intro s rest i c x v hc hx hinputs
    exact step_read hinputs (readTarget_cseq_of_getElem? hc hx)
  · intro s rest i a b x hi hx hinputs
    exact step_read_refused hinputs (readTarget_cseq_eq_none hi hx)

end Sys2Proof.Machine
end

section
/-! Command strings (R76 to R78): what each format reads, what the decoder answers behind a defined and
behind a reserved opcode, and that decoder and encoder are inverse to each other. -/

namespace Sys2Proof.Machine

variable {op : Byte} {args bs : List Byte} {i : Instr}

/-! ### The four formats (R76) -/

/-- What a format may answer to the bytes behind a defined opcode: the well-formed command that has this
string, or that the string has the wrong length (R76, R78). -/
def IsFormatAnswer (op : Byte) (args : List Byte) (r : Except DecodeError Instr) : Prop :=
  (∃ i, r = .ok i ∧ i.wf = true ∧ encode i = op :: args) ∨ r = .error (.badLength op)

/-- Format Z: the string ends behind the opcode, or it is too long (R76). -/
theorem decodeZ_answer (hwf : i.wf = true) (henc : encode i = [op]) :
    IsFormatAnswer op args (decodeZ op i args) := by
  cases args with
  | nil => exact .inl ⟨i, rfl, hwf, henc⟩
  | cons => exact .inr rfl

/-- Format B: one byte follows, or the length is wrong (R76). -/
theorem decodeB_answer {f : Byte → Instr} (hwf : ∀ d, (f d).wf = true)
    (henc : ∀ d, encode (f d) = [op, d]) : IsFormatAnswer op args (decodeB op f args) := by
  unfold decodeB
  split
  · next d => exact .inl ⟨f d, rfl, hwf d, henc d⟩
  · exact .inr rfl

/-- Format Q: four bytes follow, or the length is wrong (R76). -/
theorem decodeQ_answer {f : Byte → Byte → Byte → Byte → Instr}
    (hwf : ∀ b0 b1 b2 b3, (f b0 b1 b2 b3).wf = true)
    (henc : ∀ b0 b1 b2 b3, encode (f b0 b1 b2 b3) = [op, b0, b1, b2, b3]) :
    IsFormatAnswer op args (decodeQ op f args) := by
  unfold decodeQ
  split
  · next b0 b1 b2 b3 => exact .inl ⟨f b0 b1 b2 b3, rfl, hwf b0 b1 b2 b3, henc b0 b1 b2 b3⟩
  · exact .inr rfl

/-- A text as long as a count byte says fits, and that byte is its count (R76). -/
theorem encodeText_of_length_eq {n : Byte} {text : List Byte} (h : text.length = n.toNat) :
    textFits text = true ∧ encodeText text = n :: text := by
  have hn := n.isLt
  constructor
  · simp only [textFits, decide_eq_true_eq]
    omega
  · rw [encodeText, h, BitVec.ofNat_toNat, BitVec.setWidth_eq]

/-- Format T: a count byte and that many bytes follow, or the length is wrong (R76). -/
theorem decodeT_answer {f : List Byte → Instr} (hwf : ∀ text, (f text).wf = textFits text)
    (henc : ∀ text, encode (f text) = op :: encodeText text) :
    IsFormatAnswer op args (decodeT op f args) := by
  cases args with
  | nil => exact .inr rfl
  | cons n text =>
    by_cases hlen : text.length = n.toNat
    · obtain ⟨hfits, htext⟩ := encodeText_of_length_eq hlen
      exact .inl ⟨f text, if_pos hlen, hwf text ▸ hfits, htext ▸ henc text⟩
    · exact .inr (if_neg hlen)

/-- Format T reads back a text that fits its count byte (R76). -/
theorem decodeT_encodeText {f : List Byte → Instr} {text : List Byte} (h : textFits text = true) :
    decodeT op f (encodeText text) = .ok (f text) :=
  if_pos (Laws.CommandForm.textCount h)

/-! ### The decoder behind an opcode byte (R77, R78) -/

/-- Behind the opcode of a command the decoder reads the operand bytes by that command's format. -/
theorem decode_opcode_answer (i : Instr) (args : List Byte) :
    IsFormatAnswer (opcode i) args (decode (opcode i :: args)) := by
  cases i with
  | crcUpd d => exact decodeB_answer (fun _ => rfl) fun _ => rfl
  | tagLdb b0 b1 b2 b3 => exact decodeQ_answer (fun _ _ _ _ => rfl) fun _ _ _ _ => rfl
  | tagCmp b0 b1 b2 b3 => exact decodeQ_answer (fun _ _ _ _ => rfl) fun _ _ _ _ => rfl
  | tagLdt text => exact decodeT_answer (fun _ => rfl) fun _ => rfl
  | ctFind key => exact decodeT_answer (fun _ => rfl) fun _ => rfl
  | ctRem key => exact decodeT_answer (fun _ => rfl) fun _ => rfl
  | _ => exact decodeZ_answer rfl rfl

/-- A command of every opcode of the map (R77). -/
def oneOfEachOpcode : List Instr :=
  [.crcInit, .crcUpd 0#8, .crcFin, .tagLdb 0#8 0#8 0#8 0#8, .tagLdt [], .tagRdt,
    .tagCmp 0#8 0#8 0#8 0#8, .tagCrit, .tagPub, .tagRsv, .tagSafe, .chNew, .chParse, .chSer, .chTxt,
    .ctNew, .ctParse, .ctSer, .ctApp, .ctFind [], .ctRem []]

/-- An opcode that no command has is refused as reserved, whatever follows it (R78). -/
theorem decode_reserved (hop : ∀ i, opcode i ≠ op) :
    decode (op :: args) = .error (.reservedOpcode op) := by
  have hcode : ∀ i ∈ oneOfEachOpcode, op.toNat ≠ (opcode i).toNat :=
    fun i _ h => hop i (BitVec.eq_of_toNat_eq h).symm
  simp only [oneOfEachOpcode, List.forall_mem_cons, opcode, BitVec.reduceToNat] at hcode
  simp [decode, hcode]

/-! ### Decoder and encoder (R76, R77) -/

/-- Settles O2, by the format of the command: only a text has to be counted. -/
theorem decodeOfEncodeIsTheCommand : Obligations.DecodeOfEncodeIsTheCommand := by
  intro i hwf
  cases i with
  | tagLdt text => exact decodeT_encodeText hwf
  | ctFind key => exact decodeT_encodeText hwf
  | ctRem key => exact decodeT_encodeText hwf
  | _ => rfl

/-- Settles O3: a string that decodes begins with a command's opcode, and the format read the rest. -/
theorem encodeOfDecodeIsTheString : Obligations.EncodeOfDecodeIsTheString := by
  intro bs i hdecode
  cases bs with
  | nil => cases hdecode
  | cons op args =>
    by_cases hop : ∃ j, opcode j = op
    · obtain ⟨j, rfl⟩ := hop
      obtain ⟨k, hk, hwf, henc⟩ | herror := decode_opcode_answer j args
      · obtain rfl := Except.ok.inj (hdecode.symm.trans hk)
        exact ⟨hwf, henc⟩
      · cases hdecode.symm.trans herror
    · cases hdecode.symm.trans (decode_reserved (not_exists.mp hop))

/-- The strings that decode are the strings of the well-formed commands (R76, R77). -/
theorem decode_eq_ok_iff : decode bs = .ok i ↔ i.wf = true ∧ encode i = bs := by
  constructor
  · exact encodeOfDecodeIsTheString bs i
  · rintro ⟨hwf, rfl⟩
    exact decodeOfEncodeIsTheCommand i hwf

/-! ### The formats as sets of strings (R76, R77) -/

/-- The string of a well-formed command fits the format of its opcode (R76). -/
theorem encode_fitsAFormat (hwf : i.wf = true) : fitsAFormat (encode i) := by
  cases i with
  | crcUpd d => exact .inr (.inl ⟨d, rfl⟩)
  | tagLdb b0 b1 b2 b3 => exact .inr (.inr (.inl ⟨_, b0, b1, b2, b3, by simp [opcode], rfl⟩))
  | tagCmp b0 b1 b2 b3 => exact .inr (.inr (.inl ⟨_, b0, b1, b2, b3, by simp [opcode], rfl⟩))
  | tagLdt text =>
    exact .inr (.inr (.inr ⟨_, _, text, by simp [opcode], rfl, Laws.CommandForm.textCount hwf⟩))
  | ctFind key =>
    exact .inr (.inr (.inr ⟨_, _, key, by simp [opcode], rfl, Laws.CommandForm.textCount hwf⟩))
  | ctRem key =>
    exact .inr (.inr (.inr ⟨_, _, key, by simp [opcode], rfl, Laws.CommandForm.textCount hwf⟩))
  | _ => exact .inl ⟨_, by decide, rfl⟩

/-- Every string that fits a format is the string of a well-formed command (R76, R77). -/
theorem exists_encode_of_fitsAFormat (h : fitsAFormat bs) : ∃ i, i.wf = true ∧ encode i = bs := by
  obtain ⟨op, hop, rfl⟩ | ⟨d, rfl⟩ | ⟨op, b0, b1, b2, b3, hop, rfl⟩ | ⟨op, n, text, hop, rfl, hlen⟩ := h
  · have hZ : ∀ op ∈ [0x10#8, 0x12#8, 0x22#8, 0x24#8, 0x25#8, 0x26#8, 0x27#8, 0x30#8, 0x31#8, 0x32#8,
        0x33#8, 0x40#8, 0x41#8, 0x42#8, 0x43#8],
        ∃ i ∈ oneOfEachOpcode, i.wf = true ∧ encode i = [op] := by decide
    obtain ⟨i, -, hi⟩ := hZ op hop
    exact ⟨i, hi⟩
  · exact ⟨.crcUpd d, rfl, rfl⟩
  · fin_cases hop
    · exact ⟨.tagLdb b0 b1 b2 b3, rfl, rfl⟩
    · exact ⟨.tagCmp b0 b1 b2 b3, rfl, rfl⟩
  · obtain ⟨hfits, htext⟩ := encodeText_of_length_eq hlen
    rw [← htext]
    fin_cases hop
    · exact ⟨.tagLdt text, hfits, rfl⟩
    · exact ⟨.ctFind text, hfits, rfl⟩
    · exact ⟨.ctRem text, hfits, rfl⟩

/-- Settles O4: either set of strings is that of the well-formed commands. -/
theorem exactlyTheFormattedStringsDecode : Obligations.ExactlyTheFormattedStringsDecode := by
  intro bs
  simp only [decode_eq_ok_iff]
  constructor
  · rintro ⟨i, hwf, rfl⟩
    exact encode_fitsAFormat hwf
  · exact exists_encode_of_fitsAFormat

/-! ### Strings that are no command (R78) -/

/-- A string that does not decode is refused, for the decoder's reason (R78). -/
theorem step_of_decode_error {s : State} {rest : List Input} {e : DecodeError}
    (hinputs : s.inputs = .command bs :: rest) (hdecode : decode bs = .error e) :
    step s = rejectCommand bs e := by
  rw [step_of_inputs_cons hinputs, perform_command, issueCommand, hdecode]

/-- Settles O5: the string is empty, or the decoder fails behind a defined opcode or at a reserved one. -/
theorem reservedAndMalformedStringsAreRefused :
    Obligations.ReservedAndMalformedStringsAreRefused := by
  intro s bs rest hinputs hfit
  cases bs with
  | nil => exact ⟨_, step_of_decode_error hinputs rfl, .inr ⟨rfl, fun _ h => by cases h⟩⟩
  | cons op args =>
    by_cases hop : ∃ i, opcode i = op
    · obtain ⟨i, rfl⟩ := hop
      obtain ⟨j, hj, -⟩ | herror := decode_opcode_answer i args
      · exact absurd ((exactlyTheFormattedStringsDecode _).mp ⟨j, hj⟩) hfit
      · exact ⟨_, step_of_decode_error hinputs herror,
          .inr ⟨rfl, fun op' h => ⟨i, Option.some.inj h⟩⟩⟩
    · have hreserved := not_exists.mp hop
      exact ⟨_, step_of_decode_error hinputs (decode_reserved hreserved),
        .inl ⟨op, rfl, rfl, hreserved⟩⟩

/-- Settles O1: the decoder, run on each string. -/
theorem writtenOutStringsDecode : Obligations.WrittenOutStringsDecode := by
  refine ⟨?_, ?_, ?_, ?_, ?_, ?_, ?_, ?_, ?_⟩ <;> rfl

end Sys2Proof.Machine
end

section
/-! The checksum generator (R100 to R108): the three commands as equations, the byte step in the other two
forms the spec gives for it (R101, R102), the stream of commands over a message, and the inverted bit. -/

namespace Sys2Proof.Machine

/-! ### The three commands (R104 to R106) -/

@[simp] theorem exec_crcInit (s : State) :
    exec .crcInit s = .next (State.succeeded { s with crcr := Config.CRC_INIT }) := rfl

@[simp] theorem exec_crcUpd (d : Byte) (s : State) :
    exec (.crcUpd d) s = .next (State.succeeded { s with crcr := crcByte s.crcr d }) := rfl

@[simp] theorem exec_crcFin (s : State) :
    exec .crcFin s = .next (State.succeeded { s with crco := s.crcr ^^^ Config.CRC_XOROUT }) := rfl

/-- Settles O9: both command strings are a lone opcode byte, and each command writes its one register. -/
theorem crcInitAndFinWriteTheirRegister : Obligations.CrcInitAndFinWriteTheirRegister :=
  ⟨decodeOfEncodeIsTheCommand .crcInit rfl, decodeOfEncodeIsTheCommand .crcFin rfl,
    fun s => ⟨exec_crcInit s, exec_crcFin s⟩⟩

/-! ### The byte step by shifts and by the table (R101, R102) -/

/-- The shift step that feeds no bit: shift, and xor the polynomial in when a 1 falls out (R101). -/
theorem crcBit_false (c : Word) :
    crcBit c false = if c.getLsbD 0 then (c >>> 1) ^^^ 0xEDB88320#32 else c >>> 1 := by
  rw [crcBit, Bool.xor_false, Config.CRC_POLY]

/-- Settles O10: xoring the byte in first leaves eight shift steps that feed no bit. -/
theorem crcUpdIsXorThenEightShifts : Obligations.CrcUpdIsXorThenEightShifts := by
  intro d s
  refine ⟨decodeOfEncodeIsTheCommand (.crcUpd d) rfl, ?_⟩
  rw [exec_crcUpd, crcByte_eq_iterate, funext crcBit_false]
  rfl

/-- An entry of the table is the byte step from the zero register (R102). -/
theorem crcTable_eq_crcByte_zero (n : Byte) : crcTable n = crcByte 0#32 n := by
  rw [crcTable, crcByte_eq_iterate, crcByte_eq_iterate, BitVec.xor_comm]
  rfl

/-- Eight shift steps look the low byte up in the table and shift the other three bytes down (R102). -/
theorem crcBit_iterate_eight (x : Word) :
    (fun c => crcBit c false)^[8] x = crcTable (x.setWidth 8) ^^^ (x >>> 8) := by
  have hfed : (List.range 8).foldl (fun c i => crcBit c (x.getLsbD i)) 0#32 =
      crcByte 0#32 (x.setWidth 8) := by
    refine List.foldl_ext _ _ _ fun c i hi => ?_
    simp [List.mem_range.mp hi]
  rw [crcTable_eq_crcByte_zero, ← hfed, ← crcBit_iterate_xor, BitVec.zero_xor]

/-- Settles O11: the byte that is xored in reaches the low byte of the register only. -/
theorem crcByteIsTheTableStep : Obligations.CrcByteIsTheTableStep := by
  intro c b
  have hshift : (c ^^^ b.setWidth 32) >>> 8 = c >>> 8 := by
    rw [BitVec.ushiftRight_xor_distrib, setWidth_ushiftRight_eight, BitVec.xor_zero]
  rw [crcByte_eq_iterate, crcBit_iterate_eight, hshift]

/-! ### The stream interface (R103 to R106) -/

/-- The updates of a message after a success take its bytes into `CRCR` and change nothing else. -/
theorem execAll_crcUpd (msg : List Byte) (s : State) :
    execAll (msg.map .crcUpd) s.succeeded =
      .next (State.succeeded { s with crcr := crcRun s.crcr msg }) := by
  induction msg generalizing s with
  | nil => rfl
  | cons d msg ih => exact ih { s with crcr := crcByte s.crcr d }

/-- Settles O12: the updates run the message from the start value, and the final xor is that of `Crc32`. -/
theorem crcStreamComputesTheChecksum : Obligations.CrcStreamComputesTheChecksum := by
  intro s msg
  have hupd : execAll (.crcInit :: msg.map .crcUpd) s =
      .next (State.succeeded { s with crcr := crcRun Config.CRC_INIT msg }) :=
    execAll_crcUpd msg { s with crcr := Config.CRC_INIT }
  exact ⟨_, execAll_append hupd, rfl⟩

/-! ### One inverted bit (R107) -/

/-- Inverting one of its bits changes a byte. -/
theorem xor_bit_ne (b : Byte) {k : Nat} (hk : k < 8) : b ^^^ (1#8 <<< k) ≠ b := by
  intro h
  have hbit : (b ^^^ (1#8 <<< k)).getLsbD k = b.getLsbD k := by rw [h]
  simp [hk] at hbit

/-- Settles O13: the inverted bit changes one byte, and no message with another byte there has the same
checksum. -/
theorem oneFlippedBitChangesTheChecksum : Obligations.OneFlippedBitChangesTheChecksum := by
  intro s i k hi hk
  obtain ⟨before, b, after, rfl, -, hflip⟩ := flipBit_split k hi
  rw [hflip]
  exact crc32_ne_of_byte_ne before after (xor_bit_ne b hk)

end Sys2Proof.Machine
end

section
/-! The tag unit (R115 to R128): its commands as equations, the tag of four bytes with its order and its
property bits, and the texts that are read from and written to a tag. -/

namespace Sys2Proof.Machine

/-! ### The commands (R119 to R127) -/

@[simp] theorem exec_tagLdb (b0 b1 b2 b3 : Byte) (s : State) :
    exec (.tagLdb b0 b1 b2 b3) s = .next (State.succeeded { s with tag := word32 b0 b1 b2 b3 }) := rfl

@[simp] theorem exec_tagRdt (s : State) :
    exec .tagRdt s = .next (State.succeeded { s with obuf := tagText s.tag }) := rfl

@[simp] theorem exec_tagCmp (b0 b1 b2 b3 : Byte) (s : State) :
    exec (.tagCmp b0 b1 b2 b3) s = .next (s.writeCmp s.tag (word32 b0 b1 b2 b3)).succeeded := rfl

@[simp] theorem exec_tagCrit (s : State) :
    exec .tagCrit s = .next (s.writeP (critical s.tag)).succeeded := rfl

@[simp] theorem exec_tagPub (s : State) :
    exec .tagPub s = .next (s.writeP (isPublic s.tag)).succeeded := rfl

@[simp] theorem exec_tagRsv (s : State) :
    exec .tagRsv s = .next (s.writeP (reservedValid s.tag)).succeeded := rfl

@[simp] theorem exec_tagSafe (s : State) :
    exec .tagSafe s = .next (s.writeP (safeToCopy s.tag)).succeeded := rfl

/-- The two tests of `TAG.LDT` together say that the text is four letters (R120, R116). -/
theorem fourLetters_iff (text : List Byte) :
    fourLetters text ↔ text.length = 4 ∧ text.all isLetter = true := by
  simp only [fourLetters, List.all_eq_true, isLetter_iff]

theorem exec_tagLdt_of_fourLetters {text : List Byte} (h : fourLetters text) (s : State) :
    exec (.tagLdt text) s = .next (State.succeeded { s with tag := rd32 text 0 }) := by
  obtain ⟨hlen, hletters⟩ := (fourLetters_iff text).mp h
  simp [exec, execTagLdt, hlen, hletters, done]

theorem exec_tagLdt_of_not_fourLetters {text : List Byte} (h : ¬ fourLetters text) (s : State) :
    exec (.tagLdt text) s = .next (s.failed .formatError none none) := by
  rw [fourLetters_iff] at h
  by_cases hlen : text.length = 4
  · have hletters : text.all isLetter = false := by simpa [hlen] using h
    simp [exec, execTagLdt, hlen, hletters, raise]
  · simp [exec, execTagLdt, hlen, raise]

/-! ### A tag as its four bytes (R21, R115, R118) -/

theorem be32_eq_iff {t : Word} {b0 b1 b2 b3 : Byte} :
    be32 t = [b0, b1, b2, b3] ↔ t = word32 b0 b1 b2 b3 := by
  rw [← be32_word32, be32_inj]

/-- Two tags are equal when all four bytes are (R118). -/
theorem tagEq_word32 {a0 a1 a2 a3 b0 b1 b2 b3 : Byte} :
    tagEq (word32 a0 a1 a2 a3) (word32 b0 b1 b2 b3) = true ↔
      a0 = b0 ∧ a1 = b1 ∧ a2 = b2 ∧ a3 = b3 := by
  rw [tagEq, beq_iff_eq, ← be32_inj, be32_word32, be32_word32]
  simp

/-- The order of the register images is the order at the first position where two tags differ (R118). -/
theorem tagLt_word32 {a0 a1 a2 a3 b0 b1 b2 b3 : Byte} :
    tagLt (word32 a0 a1 a2 a3) (word32 b0 b1 b2 b3) = true ↔
      a0.toNat < b0.toNat ∨ a0 = b0 ∧ (a1.toNat < b1.toNat ∨ a1 = b1 ∧
        (a2.toNat < b2.toNat ∨ a2 = b2 ∧ a3.toNat < b3.toNat)) := by
  rw [tagLt, decide_eq_true_eq, word32_toNat, word32_toNat]
  simp only [← BitVec.toNat_inj]
  omega

/-! ### The property bits (R117) -/

section

variable {t : Word} {b0 b1 b2 b3 : Byte} (h : be32 t = [b0, b1, b2, b3])
include h

theorem critical_of_be32 : critical t = !b0.getLsbD 5 := by
  rw [be32_eq_iff.mp h]
  simp [critical, word32]

theorem isPublic_of_be32 : isPublic t = !b1.getLsbD 5 := by
  rw [be32_eq_iff.mp h]
  simp [isPublic, word32]

theorem reservedValid_of_be32 : reservedValid t = !b2.getLsbD 5 := by
  rw [be32_eq_iff.mp h]
  simp [reservedValid, word32]

theorem safeToCopy_of_be32 : safeToCopy t = b3.getLsbD 5 := by
  rw [be32_eq_iff.mp h]
  simp [safeToCopy, word32]

end

/-- The mask `0x20` tests bit 5 of a byte (R117). -/
theorem decide_and_mask (b : Byte) :
    decide (b &&& 0x20#8 = 0) = (!b.getLsbD 5) ∧ decide (b &&& 0x20#8 ≠ 0) = b.getLsbD 5 := by
  have hmask : b &&& 0x20#8 = if b.getLsbD 5 then 0x20#8 else 0 := BitVec.and_twoPow b 5
  rw [hmask]
  cases b.getLsbD 5 <;> decide

/-- Bit 5 of a byte by its value. -/
theorem getLsbD_five_iff (b : Byte) : b.getLsbD 5 = true ↔ b.toNat / 32 % 2 = 1 := by
  rw [← BitVec.testBit_toNat, Nat.testBit_eq_decide_div_mod_eq, decide_eq_true_eq]

/-- A letter is upper case exactly when its bit 5 is 0, and lower case exactly when it is 1 (R72). -/
theorem case_of_letter {b : Byte}
    (h : (0x41 ≤ b.toNat ∧ b.toNat ≤ 0x5A) ∨ (0x61 ≤ b.toNat ∧ b.toNat ≤ 0x7A)) :
    ((!b.getLsbD 5) = true ↔ 0x41 ≤ b.toNat ∧ b.toNat ≤ 0x5A) ∧
      (b.getLsbD 5 = true ↔ 0x61 ≤ b.toNat ∧ b.toNat ≤ 0x7A) := by
  rw [Bool.not_eq_true', ← Bool.not_eq_true, getLsbD_five_iff]
  omega

/-! ### The text of a tag (R128) -/

theorem tagText_of_ascii {t : Word} (h : ∀ b ∈ be32 t, b.toNat < 0x80) : tagText t = be32 t := by
  rw [tagText, tagBytes, if_pos]
  simpa using h

theorem tagText_of_not_ascii {t : Word} (h : ∃ b ∈ be32 t, 0x80 ≤ b.toNat) :
    tagText t = Config.lossyText t := by
  rw [tagText, tagBytes, if_neg, lossyText]
  simpa using h

/-! ### The statements -/

/-- Settles O15: the bytes of the loaded tag are the operand. -/
theorem tagLdbLoadsTheFourBytes : Obligations.TagLdbLoadsTheFourBytes := by
  intro b0 b1 b2 b3 s
  refine ⟨decodeOfEncodeIsTheCommand (.tagLdb b0 b1 b2 b3) rfl, _, exec_tagLdb b0 b1 b2 b3 s, rfl, ?_⟩
  simpa only [be32, List.cons.injEq, and_true, succeeded_tag] using be32_word32 b0 b1 b2 b3

/-- Settles O16: a text that fits its count byte decodes, and the letter test splits the results. -/
theorem tagLdtLoadsExactlyFourLetters : Obligations.TagLdtLoadsExactlyFourLetters := by
  refine ⟨fun text hlen => ?_, fun b0 b1 b2 b3 s h => ?_, fun text s h => ?_⟩
  · exact decodeOfEncodeIsTheCommand (.tagLdt text) (decide_eq_true hlen)
  · exact ⟨_, exec_tagLdt_of_fourLetters h s, rfl, be32_word32 b0 b1 b2 b3⟩
  · exact exec_tagLdt_of_not_fourLetters h s

/-- Settles O18: both tags of the comparison are words of four bytes. -/
theorem tagCmpComparesByteByByte : Obligations.TagCmpComparesByteByByte := by
  intro k0 k1 k2 k3 s
  refine ⟨decodeOfEncodeIsTheCommand (.tagCmp k0 k1 k2 k3) rfl, _, exec_tagCmp k0 k1 k2 k3 s, rfl, ?_⟩
  intro t0 t1 t2 t3 htag
  rw [be32_eq_iff.mp htag]
  exact ⟨tagEq_word32, tagLt_word32⟩

/-- Settles O19: each predicate is one bit of the tag, and the mask reads the same bit of a byte. -/
theorem tagPredicatesReadBitFive : Obligations.TagPredicatesReadBitFive := by
  refine ⟨decodeOfEncodeIsTheCommand .tagCrit rfl, decodeOfEncodeIsTheCommand .tagPub rfl,
    decodeOfEncodeIsTheCommand .tagRsv rfl, decodeOfEncodeIsTheCommand .tagSafe rfl, ?_⟩
  intro t0 t1 t2 t3 s htag
  simp only [decide_and_mask]
  refine ⟨?_, ?_, ?_, ?_⟩
  · rw [exec_tagCrit, critical_of_be32 htag]
    rfl
  · rw [exec_tagPub, isPublic_of_be32 htag]
    rfl
  · rw [exec_tagRsv, reservedValid_of_be32 htag]
    rfl
  · rw [exec_tagSafe, safeToCopy_of_be32 htag]
    rfl

/-- Settles O20: each predicate is bit 5 of a letter, which is its case. -/
theorem letterCaseGivesTheProperties : Obligations.LetterCaseGivesTheProperties := by
  intro t t0 t1 t2 t3 htag ⟨_, hletters⟩
  simp only [List.forall_mem_cons] at hletters
  obtain ⟨h0, h1, h2, h3, -⟩ := hletters
  rw [critical_of_be32 htag, isPublic_of_be32 htag, reservedValid_of_be32 htag, safeToCopy_of_be32 htag]
  exact ⟨(case_of_letter h0).1, (case_of_letter h1).1, (case_of_letter h2).1, (case_of_letter h3).2⟩

/-- Settles O17: the text of the tag in either case, written to `OBUF`. -/
theorem tagRdtWritesTheTagText : Obligations.TagRdtWritesTheTagText := by
  refine ⟨decodeOfEncodeIsTheCommand .tagRdt rfl, fun s h => ?_, fun s h => ?_⟩
  · rw [exec_tagRdt, tagText_of_ascii h]
    rfl
  · rw [exec_tagRdt, tagText_of_not_ascii h]
    rfl

end Sys2Proof.Machine
end

section
/-! The text test (R145): what it accepts is exactly the concatenations of well-formed characters. -/

namespace Sys2Proof.Machine

/-- A concatenation of well-formed characters (R145). -/
def isUtf8Text (s : List Byte) : Prop :=
  ∃ cs : List (List Byte), s = cs.flatten ∧ ∀ c ∈ cs, isUtf8Char c

theorem isUtf8Text_nil : isUtf8Text [] := ⟨[], rfl, fun _ h => absurd h List.not_mem_nil⟩

theorem isUtf8Text_append {c s : List Byte} (hc : isUtf8Char c) (hs : isUtf8Text s) :
    isUtf8Text (c ++ s) := by
  obtain ⟨cs, rfl, hcs⟩ := hs
  exact ⟨c :: cs, rfl, List.forall_mem_cons.mpr ⟨hc, hcs⟩⟩

/-- Between two characters the test takes a whole character: its first byte picks the row that the other
bytes lie in. -/
theorem utf8Run_char {c : List Byte} (rest : List Byte) (hc : isUtf8Char c) :
    utf8Run [] (c ++ rest) = utf8Run [] rest := by
  obtain ⟨row, hrow, hbytes⟩ := hc
  cases hbytes with
  | nil => rfl
  | cons hfirst hmore =>
    simp only [List.cons_append, utf8Run, utf8Follow_of_row hrow hfirst]
    exact utf8Run_append rest hmore

/-- What the test accepts in the middle of a character is the bytes that are pending and then a text. -/
theorem exists_of_utf8Run {pending : List (Nat × Nat)} {s : List Byte} (h : utf8Run pending s = true) :
    ∃ c rest, s = c ++ rest ∧ List.Forall₂ inRange c pending ∧ isUtf8Text rest := by
  induction s generalizing pending with
  | nil =>
    obtain rfl : pending = [] := List.isEmpty_iff.mp h
    exact ⟨[], [], rfl, .nil, isUtf8Text_nil⟩
  | cons b s ih =>
    cases pending with
    | cons r more =>
      simp only [utf8Run, Bool.and_eq_true, decide_eq_true_eq] at h
      obtain ⟨hb, hmore⟩ := h
      obtain ⟨c, rest, rfl, hc, hrest⟩ := ih hmore
      exact ⟨b :: c, rest, rfl, .cons hb hc, hrest⟩
    | nil =>
      rw [utf8Run] at h
      split at h
      · next more hfollow =>
        obtain ⟨c, rest, rfl, hc, hrest⟩ := ih h
        obtain ⟨r, hrow, hb⟩ := row_of_utf8Follow hfollow
        exact ⟨[], b :: c ++ rest, rfl, .nil, isUtf8Text_append ⟨r :: more, hrow, .cons hb hc⟩ hrest⟩
      · cases h

/-- `Utf8Valid` as R145 words it. -/
theorem utf8Valid_iff (s : List Byte) : utf8Valid s = true ↔ isUtf8Text s := by
  constructor
  · intro h
    obtain ⟨c, rest, rfl, hc, hrest⟩ := exists_of_utf8Run h
    cases hc
    exact hrest
  · rintro ⟨cs, rfl, hcs⟩
    induction cs with
    | nil => rfl
    | cons c cs ih =>
      obtain ⟨hc, hcs⟩ := List.forall_mem_cons.mp hcs
      exact (utf8Run_char cs.flatten hc).trans (ih hcs)

theorem utf8Valid_eq_false_iff (s : List Byte) : utf8Valid s = false ↔ ¬ isUtf8Text s := by
  rw [← utf8Valid_iff, Bool.not_eq_true]

end Sys2Proof.Machine
end

section
/-! The chunk unit (R135 to R149): its commands as equations, the deframer on each kind of bad frame, the
inverted bit of R147, the round trip of R146, and how `W` comes to hold a chunk and keeps one. -/

namespace Sys2Proof.Machine

variable {s t : State} {i : Instr}

/-! ### The commands (R140 to R143, R149) -/

theorem exec_chNew_of_le (h : s.pbuf.length ≤ 4294967295) :
    exec .chNew s = .next (State.succeeded { s with
      w := WorkReg.ofChunk { tag := s.tag, pay := s.pbuf, crc := chunkCrc s.tag s.pbuf } }) := by
  have hle : ¬ s.pbuf.length > Config.MAX_PAYLOAD := Nat.not_lt.mpr h
  simp only [exec, execChNew, chunkNew, if_neg hle, done]

theorem exec_chNew_of_gt (h : 4294967295 < s.pbuf.length) :
    exec .chNew s = .next (s.failed .formatError none (some s.tag)) := by
  have hgt : s.pbuf.length > Config.MAX_PAYLOAD := h
  simp only [exec, execChNew, chunkNew, if_pos hgt, raise]

theorem exec_chParse_of_ok {c : Chunk} {size : Nat}
    (h : chunkParse tagCheckOnParse (fromCursor s) = .ok (c, size)) :
    exec .chParse s = .next (State.succeeded { s with w := WorkReg.ofChunk c, cur := s.cur + size }) := by
  simp only [exec, execChParse, h, done]

theorem exec_chParse_of_error {f : FrameFail}
    (h : chunkParse tagCheckOnParse (fromCursor s) = .error f) :
    exec .chParse s = .next (s.failed f.kind (some s.cur) f.tag) := by
  simp only [exec, execChParse, h, raise]

theorem exec_chSer_of_chunk (h : s.w.v = true) :
    exec .chSer s = .next (State.succeeded { s with obuf := chunkSer s.w.chunk }) := by
  simp [exec, execChSer, h, done]

theorem exec_chTxt_of_text (h : s.w.v = true) (htext : isUtf8Text s.w.pay) :
    exec .chTxt s = .next (State.succeeded { s with obuf := s.w.pay }) := by
  simp [exec, execChTxt, h, (utf8Valid_iff _).mpr htext, done]

theorem exec_chTxt_of_not_text (h : s.w.v = true) (htext : ¬ isUtf8Text s.w.pay) :
    exec .chTxt s = .next (s.failed .encodingError none (some s.w.tag)) := by
  simp [exec, execChTxt, h, (utf8Valid_eq_false_iff _).mpr htext, raise]

/-- The commands that read a chunk from `W` are refused while it holds none (R149). -/
theorem exec_refused_of_no_chunk (hi : needsChunk i) (h : s.w.v = false) :
    exec i s = .refused .noChunk := by
  obtain rfl | rfl | rfl := hi
  · simp [exec, execChSer, h, refuse]
  · simp [exec, execChTxt, h, refuse]
  · simp [exec, execCtApp, h, refuse]

/-! ### The deframer on a bad frame (R139, R191) -/

/-- A stored checksum that is not the recomputed one is reported before the tag is judged (R191). -/
theorem chunkParse_wrong_checksum (check : Bool) {tag k : Word} {p : List Byte} (after : List Byte)
    (hp : p.length ≤ 4294967295) (hk : k ≠ crc32 (be32 tag ++ p)) :
    chunkParse check (frameBytes tag p k ++ after) =
      .error { kind := .checksumMismatch, tag := some tag } := by
  have hdiff : chunkCrc tag p ≠ k := hk.symm
  rw [chunkParse_frame check after hp, if_pos hdiff]

/-- A good frame whose tag is not four letters, when tags are checked (R139). -/
theorem chunkParse_bad_tag {c : Chunk} (after : List Byte) (hc : chunkOk c)
    (htag : ¬ fourLetters (be32 c.tag)) :
    chunkParse true (chunkSer c ++ after) = .error { kind := .formatError, tag := some c.tag } := by
  obtain ⟨hcrc, hpay⟩ := hc
  have hsame : ¬ chunkCrc c.tag c.pay ≠ c.crc := fun h => h hcrc.symm
  rw [chunkSer_eq_frameBytes, chunkParse_frame true after hpay, if_neg hsame, if_pos]
  simpa [tagValid_eq_false_iff] using htag

/-! ### `CH.PARSE` at the cursor (R141, R187) -/

/-- `CH.PARSE` on a good frame behind the cursor that the tag check does not reject (R141). -/
theorem exec_chParse_good {c : Chunk} {after : List Byte} (hc : chunkOk c)
    (hbuf : fromCursor s = chunkSer c ++ after) (htag : tagCheckOnParse = true → fourLetters (be32 c.tag)) :
    exec .chParse s = .next (State.succeeded { s with
      w := WorkReg.ofChunk c, cur := s.cur + (12 + c.pay.length) }) :=
  exec_chParse_of_ok (hbuf ▸ chunkParse_good after hc fun h => (tagValid_iff _).mpr (htag h))

/-- Settles O22: the frame behind the cursor is that of a good chunk, which only the tag check can reject. -/
theorem chParseReadsOneFrame : Obligations.ChParseReadsOneFrame := by
  intro s before after p tag hibuf hcur hp
  have hbuf : fromCursor s = frameBytes tag p (crc32 (be32 tag ++ p)) ++ after :=
    fromCursor_append (hibuf.trans (List.append_assoc ..)) hcur
  have hok : chunkOk { tag := tag, pay := p, crc := crc32 (be32 tag ++ p) } := ⟨rfl, hp⟩
  have hgood := exec_chParse_good hok hbuf
  have hbad := chunkParse_bad_tag after hok
  rw [Nat.add_assoc]
  refine ⟨fun hletters => hgood fun _ => hletters, fun hletters => ?_⟩
  split
  · next hcheck =>
    refine exec_chParse_of_error (f := { kind := .formatError, tag := some tag }) ?_
    rw [tagCheckOnParse, hcheck, hbuf]
    exact hbad hletters
  · next hcheck => exact hgood fun h => absurd h hcheck

/-- Settles O23: what is left behind the cursor is too short for a header, or for the frame it announces. -/
theorem chParseReportsTruncation : Obligations.ChParseReportsTruncation := by
  refine ⟨fun s hshort => ?_, fun s before rest len tag hibuf hcur hshort => ?_⟩
  · have hlen : (fromCursor s).length < 8 := by
      rw [fromCursor_eq_drop, List.length_drop]
      omega
    exact exec_chParse_of_error (chunkParse_short hlen)
  · have hbuf : fromCursor s = be32 len ++ be32 tag ++ rest :=
      fromCursor_append (by simpa only [List.append_assoc] using hibuf) hcur
    exact exec_chParse_of_error (hbuf ▸ chunkParse_truncated hshort)

/-- Settles O24: the deframer compares the checksums before anything else of a whole frame. -/
theorem chParseReportsAWrongChecksum : Obligations.ChParseReportsAWrongChecksum := by
  intro s before after p tag k hibuf hcur hp hk
  have hbuf : fromCursor s = frameBytes tag p k ++ after :=
    fromCursor_append (hibuf.trans (List.append_assoc ..)) hcur
  exact exec_chParse_of_error (hbuf ▸ chunkParse_wrong_checksum _ after hp hk)

/-! ### `CH.NEW`, `CH.SER`, `CH.TXT` (R140, R142, R143) -/

/-- Settles O21: the length of `PBUF` decides. -/
theorem chNewBuildsTheChunk : Obligations.ChNewBuildsTheChunk :=
  ⟨decodeOfEncodeIsTheCommand .chNew rfl, fun _ => exec_chNew_of_le, fun _ => exec_chNew_of_gt⟩

/-- Settles O26: `W.V` decides. -/
theorem chSerWritesTheFrame : Obligations.ChSerWritesTheFrame :=
  ⟨decodeOfEncodeIsTheCommand .chSer rfl, fun _ => exec_refused_of_no_chunk (.inl rfl),
    fun _ => exec_chSer_of_chunk⟩

/-- Settles O27: `W.V` decides, then whether the payload is a concatenation of characters, which is what
the model's test decides. -/
theorem chTxtGivesUtf8Text : Obligations.ChTxtGivesUtf8Text :=
  ⟨decodeOfEncodeIsTheCommand .chTxt rfl, fun _ => exec_refused_of_no_chunk (.inr (.inl rfl)),
    fun _ => exec_chTxt_of_text, fun _ => exec_chTxt_of_not_text⟩

/-! ### Serialize and parse (R146) -/

/-- Settles O28: the deframer takes a good frame from the front, an accepted buffer starts with the frame
of its chunk, and the two commands pass the frame of `W` from `OBUF` to `IBUF`. -/
theorem chunkParseInvertsSerialize : Obligations.ChunkParseInvertsSerialize := by
  refine ⟨fun check c after hc => ⟨fun htag => ?_, fun hcheck htag => ?_⟩, fun check buf c size h => ?_,
    fun s hv hc htag => ?_⟩
  · exact chunkParse_good after hc fun h => (tagValid_iff _).mpr (htag h)
  · rw [hcheck]
    exact chunkParse_bad_tag after hc htag
  · obtain ⟨after, rfl, rfl, hc, -⟩ := chunkParse_ok h
    exact ⟨hc, rfl, by simp, (List.take_left' (chunkSer_length c)).symm⟩
  · refine ⟨_, _, _, _, exec_chSer_of_chunk hv, rfl, rfl,
      exec_chParse_good (after := []) hc (fromCursor_append (before := []) ?_ rfl) htag, ?_, ?_, rfl⟩
    · simp
    · exact ofChunk_chunk hv
    · simp

/-! ### One inverted bit (R147) -/

/-- Inverting a bit changes the sequence. -/
theorem flipBit_ne {l : List Byte} {j k : Nat} (hj : j < l.length) (hk : k < 8) : flipBit l j k ≠ l :=
  fun h => oneFlippedBitChangesTheChecksum l j k hj hk (congrArg crc32 h)

/-- A bit inverted in a tag and a payload: another tag and a payload of the same length, with another
checksum (R107). -/
theorem flipBit_tag_pay {tag : Word} {p : List Byte} {j k : Nat} (hj : j < (be32 tag ++ p).length)
    (hk : k < 8) : ∃ (tag' : Word) (p' : List Byte),
      flipBit (be32 tag ++ p) j k = be32 tag' ++ p' ∧ p'.length = p.length ∧
        crc32 (be32 tag' ++ p') ≠ crc32 (be32 tag ++ p) := by
  have hlen : (flipBit (be32 tag ++ p) j k).length = 4 + p.length := by simp
  obtain ⟨tag', htag⟩ := exists_be32 (l := (flipBit (be32 tag ++ p) j k).take 4) (by simp)
  have hsplit : be32 tag' ++ (flipBit (be32 tag ++ p) j k).drop 4 = flipBit (be32 tag ++ p) j k := by
    rw [htag, List.take_append_drop]
  refine ⟨tag', _, hsplit.symm, by rw [List.length_drop, hlen, Nat.add_sub_cancel_left], ?_⟩
  rw [hsplit]
  exact oneFlippedBitChangesTheChecksum _ j k hj hk

/-- A bit inverted in a 32-bit field: the field of another number. -/
theorem flipBit_be32 {v : Word} {j k : Nat} (hj : j < (be32 v).length) (hk : k < 8) :
    ∃ v', flipBit (be32 v) j k = be32 v' ∧ v' ≠ v := by
  obtain ⟨v', hv'⟩ := exists_be32 (flipBit_length (be32 v) j k)
  refine ⟨v', hv'.symm, ?_⟩
  rintro rfl
  exact flipBit_ne hj hk hv'.symm

/-- A bit inverted behind the length field leaves a frame of the same length whose stored checksum is not
that of its tag and payload: either those two changed, or the checksum did. -/
theorem flipBit_frame {c : Chunk} {j k : Nat} (hc : chunkOk c) (h4 : 4 ≤ j) (hj : j < 12 + c.pay.length)
    (hk : k < 8) : ∃ (tag : Word) (p : List Byte) (crc : Word),
      flipBit (chunkSer c) j k = frameBytes tag p crc ∧ p.length = c.pay.length ∧
        crc ≠ crc32 (be32 tag ++ p) := by
  obtain ⟨hcrc, -⟩ := hc
  have hlen : (be32 c.tag ++ c.pay).length = 4 + c.pay.length := by simp
  have hser : chunkSer c =
      be32 (BitVec.ofNat 32 c.pay.length) ++ ((be32 c.tag ++ c.pay) ++ be32 c.crc) := by
    simp [chunkSer, tagBytes]
  rw [hser, flipBit_append_right _ k h4, be32_length]
  by_cases hbody : j - 4 < (be32 c.tag ++ c.pay).length
  · obtain ⟨tag, p, hflip, hp, hne⟩ := flipBit_tag_pay hbody hk
    refine ⟨tag, p, c.crc, ?_, hp, hcrc ▸ hne.symm⟩
    rw [flipBit_append_left _ k hbody, hflip, ← hp]
    simp [frameBytes]
  · have hfield : j - 4 - (be32 c.tag ++ c.pay).length < (be32 c.crc).length := by
      rw [be32_length]
      omega
    obtain ⟨crc, hflip, hne⟩ := flipBit_be32 hfield hk
    refine ⟨c.tag, c.pay, crc, ?_, rfl, hcrc ▸ hne⟩
    rw [flipBit_append_right _ k (Nat.le_of_not_lt hbody), hflip]
    simp [frameBytes]

/-- Settles O29: the inverted bit leaves a whole frame with a wrong checksum. -/
theorem everyFlippedBitIsAChecksumMismatch : Obligations.EveryFlippedBitIsAChecksumMismatch := by
  intro check c j k hc h4 hj hk
  obtain ⟨tag, p, crc, hframe, hp, hcrc⟩ := flipBit_frame hc h4 hj hk
  obtain ⟨-, hpay⟩ := hc
  have htag : rd32 (frameBytes tag p crc) 4 = tag := by
    simpa [frameBytes] using rd32_tag (BitVec.ofNat 32 p.length) tag (p ++ be32 crc)
  have hparse := chunkParse_wrong_checksum check [] (hp ▸ hpay) hcrc
  rw [hframe, htag]
  rwa [List.append_nil] at hparse

/-! ### `W` (R22, R144, R149) -/

/-- A command leaves `W` as it is or puts a chunk into it (R22). -/
theorem exec_w_eq_or_ofChunk (h : exec i s = .next t) : t.w = s.w ∨ ∃ c, t.w = WorkReg.ofChunk c := by
  by_cases hw : t.w = s.w
  · exact .inl hw
  obtain rfl | rfl | ⟨key, rfl⟩ | ⟨key, rfl⟩ := w_writer h hw
  · obtain ⟨-, rfl⟩ | ⟨-, rfl⟩ := execChNew_next h
    · exact .inr ⟨{ tag := s.tag, pay := s.pbuf, crc := chunkCrc s.tag s.pbuf }, rfl⟩
    · exact .inl rfl
  · obtain ⟨c, size, -, rfl⟩ | ⟨f, -, rfl⟩ := execChParse_next h
    · exact .inr ⟨c, rfl⟩
    · exact .inl rfl
  · obtain ⟨j, c, -, rfl⟩ | ⟨-, rfl⟩ := execCtFind_next h
    · exact .inr ⟨c, rfl⟩
    · exact .inl rfl
  · obtain ⟨j, c, -, rfl⟩ | ⟨-, rfl⟩ := execCtRem_next h
    · exact .inr ⟨c, rfl⟩
    · exact .inl rfl

/-- A writer of `W` that succeeds, a lookup only when it hits, leaves a chunk in it (R149). -/
theorem w_v_of_success (h : exec i s = .next t) (h0 : t.status = 0)
    (hi : i = .chNew ∨ i = .chParse ∨ (∃ key, i = .ctRem key) ∨
      (∃ key, i = .ctFind key ∧ t.fl.hit = true)) : t.w.v = true := by
  obtain rfl | rfl | ⟨key, rfl⟩ | ⟨key, rfl, hhit⟩ := hi
  · obtain ⟨-, rfl⟩ | ⟨-, rfl⟩ := execChNew_next h
    · rfl
    · exact absurd h0 (code_ne_zero .formatError)
  · obtain ⟨c, size, -, rfl⟩ | ⟨f, -, rfl⟩ := execChParse_next h
    · rfl
    · exact absurd h0 (code_ne_zero f.kind)
  · obtain ⟨j, c, -, rfl⟩ | ⟨-, rfl⟩ := execCtRem_next h
    · rfl
    · exact absurd h0 (code_ne_zero .notFound)
  · obtain ⟨j, c, -, rfl⟩ | ⟨-, rfl⟩ := execCtFind_next h
    · rfl
    · exact absurd hhit Bool.false_ne_true

/-- Settles O8: the refusal depends on `W.V` only, and what a command writes to `W` is a chunk. -/
theorem chunkReadersAreRefusedWithoutAChunk : Obligations.ChunkReadersAreRefusedWithoutAChunk := by
  refine ⟨fun i s => exec_refused_of_no_chunk, rfl, fun i s t => w_v_of_success, fun i s t h hv => ?_⟩
  obtain hw | ⟨c, hw⟩ := exec_w_eq_or_ofChunk h
  · rwa [hw]
  · rw [hw, ofChunk_v]

/-- Every command keeps an empty `W` at its reset values (R144). -/
theorem exec_keeps_workOk (hs : s.workOk) (h : exec i s = .next t) : t.workOk := by
  intro hv
  obtain hw | ⟨c, hw⟩ := exec_w_eq_or_ofChunk h
  · rw [hw] at hv ⊢
    exact hs hv
  · simp [hw] at hv

/-- Settles O46: `W` has its reset values after reset, every command keeps that, and no host access writes
`W`. -/
theorem everyStepKeepsWSound : Obligations.EveryStepKeepsWSound := by
  intro s t hs h
  obtain ⟨-, -, hreset⟩ := theInvariantsHoldAfterReset
  exact step_keeps (P := State.workOk) (fun _ _ _ _ _ _ hs => hs) hreset
    (fun _ _ _ => exec_keeps_workOk) hs h

end Sys2Proof.Machine
end

section
/-! The container unit (R155 to R167): its commands as equations, the stream deframer on a whole stream and
on each kind of bad one, and the round trip of R167. -/

namespace Sys2Proof.Machine

variable {s : State} {sig key : List Byte} {check : Bool} {q : List Chunk}

/-! ### The commands (R160 to R165) -/

@[simp] theorem exec_ctNew (s : State) :
    exec .ctNew s = .next (State.succeeded { s with cseq := [] }) := rfl

theorem exec_ctParse_of_ok (h : contParse sigBytes tagCheckOnParse s.ibuf = .ok q) :
    exec .ctParse s = .next (State.succeeded { s with cseq := q, cur := s.ibuf.length }) := by
  simp only [exec, execCtParse, h, done]

theorem exec_ctParse_of_error {f : StreamFail} (h : contParse sigBytes tagCheckOnParse s.ibuf = .error f) :
    exec .ctParse s = .next (s.failed f.kind (some f.offset) f.tag) := by
  simp only [exec, execCtParse, h, raise]

@[simp] theorem exec_ctSer (s : State) :
    exec .ctSer s = .next (State.succeeded { s with obuf := contSer sigBytes s.cseq }) := rfl

theorem exec_ctApp_of_chunk (h : s.w.v = true) :
    exec .ctApp s = .next (State.succeeded { s with cseq := s.cseq ++ [s.w.chunk] }) := by
  simp [exec, execCtApp, h, done]

theorem exec_ctFind_of_hit {i : Nat} {c : Chunk} (h : findFirst s.cseq key = some (i, c)) :
    exec (.ctFind key) s =
      .next (State.succeeded { s.writeHit true with idx := i, w := WorkReg.ofChunk c }) := by
  simp only [exec, execCtFind, h, done]

theorem exec_ctFind_of_miss (h : findFirst s.cseq key = none) :
    exec (.ctFind key) s = .next (State.succeeded (s.writeHit false)) := by
  simp only [exec, execCtFind, h, done]

theorem exec_ctRem_of_hit {i : Nat} {c : Chunk} (h : findFirst s.cseq key = some (i, c)) :
    exec (.ctRem key) s = .next (State.succeeded
      { s with w := WorkReg.ofChunk c, idx := i, cseq := removeAt s.cseq i }) := by
  simp only [exec, execCtRem, h, done]

theorem exec_ctRem_of_miss (h : findFirst s.cseq key = none) :
    exec (.ctRem key) s = .next (s.failed .notFound none (textTag key)) := by
  simp only [exec, execCtRem, h, raise]

/-! ### The stream deframer (R157, R167, R191) -/

/-- Four letters in every tag are what the tag check of a run of frames asks for (R116, R139). -/
theorem tagValid_of_fourLetters (h : check = true → ∀ c ∈ q, fourLetters (be32 c.tag)) :
    check = true → ∀ c ∈ q, tagValid c.tag = true :=
  fun hcheck c hc => (tagValid_iff _).mpr (h hcheck c hc)

/-- The serialized form of good chunks parses to them (R167). -/
theorem contParse_contSer (hsig : sig.length = 8) (hq : ∀ c ∈ q, chunkOk c)
    (htag : check = true → ∀ c ∈ q, fourLetters (be32 c.tag)) :
    contParse sig check (contSer sig q) = .ok q :=
  (contParse_sig (framesOf q) hsig).trans
    (contFrames_framesOf hq (tagValid_of_fourLetters htag) (length_le_framesOf_length q))

theorem contParse_short {buf : List Byte} (h : buf.length < 8) :
    contParse sig check buf = .error { kind := .truncatedInput, offset := 0, tag := none } := by
  simp only [contParse, if_pos h]

theorem contParse_wrong_signature {buf : List Byte} (h8 : 8 ≤ buf.length) (hsig : buf.take 8 ≠ sig) :
    contParse sig check buf = .error { kind := .signatureMismatch, offset := 0, tag := none } := by
  simp only [contParse, if_neg (Nat.not_lt.mpr h8), if_pos hsig]

/-- Behind the signature and a run of good frames, the first frame that fails is reported at the offset
where it starts (R157, R191). -/
theorem contParse_bad_frame {bad : List Byte} {f : FrameFail} (hsig : sig.length = 8)
    (hq : ∀ c ∈ q, chunkOk c) (htag : check = true → ∀ c ∈ q, fourLetters (be32 c.tag)) (hne : bad ≠ [])
    (hbad : chunkParse check bad = .error f) :
    contParse sig check (contSer sig q ++ bad) =
      .error { kind := f.kind, offset := (contSer sig q).length, tag := f.tag } := by
  have hfuel : q.length < (framesOf q ++ bad).length := by
    have hframes := length_le_framesOf_length q
    have hpos := List.length_pos_iff.mpr hne
    rw [List.length_append]
    omega
  rw [contSer, List.append_assoc, contParse_sig _ hsig,
    contFrames_bad hq (tagValid_of_fourLetters htag) hne hbad hfuel, List.length_append, hsig]

/-- Settles O33: the stream of good chunks parses to them frame by frame, and what the loop accepts is the
frames of its result. -/
theorem containerParseInvertsSerialize : Obligations.ContainerParseInvertsSerialize := by
  refine ⟨fun sig check q => contParse_contSer, fun sig check buf q _ h => ?_⟩
  obtain ⟨hbuf, hq, -⟩ := contParse_ok h
  exact ⟨hbuf.symm, hq⟩

/-! ### `CT.PARSE` (R161, R187) -/

/-- Settles O30: `IBUF` is the serialized form of the chunks. -/
theorem ctParseReadsTheWholeStream : Obligations.CtParseReadsTheWholeStream := by
  intro s q hibuf hq htag
  have hser : s.ibuf = contSer sigBytes q := hibuf
  exact exec_ctParse_of_ok (hser ▸ contParse_contSer sigBytes_length hq htag)

/-- Settles O31: the length decides, then the first 8 bytes. -/
theorem ctParseChecksTheSignatureFirst : Obligations.CtParseChecksTheSignatureFirst :=
  ⟨fun _ hshort => exec_ctParse_of_error (contParse_short hshort),
    fun _ h8 hsig => exec_ctParse_of_error (contParse_wrong_signature h8 hsig)⟩

/-- Settles O32: the bytes before the failing frame are the serialized form of good chunks. -/
theorem ctParseReportsTheFirstBadFrame : Obligations.CtParseReportsTheFirstBadFrame := by
  intro s q bad f hibuf hq htag hne hbad
  have hser : s.ibuf = contSer sigBytes q ++ bad := hibuf
  have hoff : s.ibuf.length - bad.length = (contSer sigBytes q).length := by
    rw [hser, List.length_append, Nat.add_sub_cancel]
  have heval : evalBits true f.tag.isSome = if f.tag.isSome then 3 else 1 := by
    cases f.tag <;> rfl
  rw [exec_ctParse_of_error (hser ▸ contParse_bad_frame sigBytes_length hq htag hne hbad), hoff, ← heval]
  rfl

/-! ### `CT.FIND` and `CT.REM` (R164, R165) -/

/-- A key of 4 bytes names the tag it spells (R165). -/
@[simp] theorem textTag_be32 (t : Word) : textTag (be32 t) = some t := by
  simp [textTag]

/-- A key of another length names no tag (R165). -/
theorem textTag_of_length_ne (h : key.length ≠ 4) : textTag key = none := if_neg h

/-- A key that is not of 4 bytes matches no chunk (R158). -/
theorem findFirst_of_length_ne (h : key.length ≠ 4) : findFirst q key = none :=
  findFirst_none.mpr fun d _ hd => h (hd ▸ be32_length d.tag)

/-- Settles O36: whether some chunk has the key for its tag bytes decides. -/
theorem ctFindFindsTheFirstMatch : Obligations.CtFindFindsTheFirstMatch := by
  refine ⟨fun key hkey => decodeOfEncodeIsTheCommand (.ctFind key) (decide_eq_true hkey),
    fun s key before after c hcseq hbefore hc => ?_, fun s key hmiss => ?_⟩
  · exact exec_ctFind_of_hit (hcseq ▸ findFirst_hit hbefore hc)
  · exact exec_ctFind_of_miss (findFirst_none.mpr hmiss)

/-- Settles O37: whether some chunk has the key for its tag bytes decides, and a key of another length than
4 is never a tag's. -/
theorem ctRemRemovesTheFirstMatch : Obligations.CtRemRemovesTheFirstMatch := by
  refine ⟨fun key hkey => decodeOfEncodeIsTheCommand (.ctRem key) (decide_eq_true hkey),
    fun s key before after c hcseq hbefore hc => ?_, fun s k hmiss => ?_, fun s key hkey => ?_⟩
  · rw [exec_ctRem_of_hit (hcseq ▸ findFirst_hit hbefore hc), hcseq, removeAt_append]
    rfl
  · have hnone : findFirst s.cseq (be32 k) = none :=
      findFirst_none.mpr fun d hd htag => hmiss d hd (be32_injective htag)
    rw [exec_ctRem_of_miss hnone, textTag_be32]
    rfl
  · rw [exec_ctRem_of_miss (findFirst_of_length_ne hkey), textTag_of_length_ne hkey]
    rfl

/-! ### `CT.SER`, `CT.NEW`, `CT.APP` (R160, R162, R163) -/

/-- Settles O34: the serialized form is the signature and the frames of R71. -/
theorem ctSerWritesTheStream : Obligations.CtSerWritesTheStream :=
  ⟨decodeOfEncodeIsTheCommand .ctSer rfl, exec_ctSer⟩

/-- Settles O35: `W.V` decides. -/
theorem ctNewEmptiesAndCtAppAppends : Obligations.CtNewEmptiesAndCtAppAppends :=
  ⟨decodeOfEncodeIsTheCommand .ctNew rfl, decodeOfEncodeIsTheCommand .ctApp rfl, exec_ctNew,
    fun _ => exec_refused_of_no_chunk (.inr (.inr rfl)), fun _ => exec_ctApp_of_chunk⟩

end Sys2Proof.Machine
end

section
/-! The four use-cases (R175 to R180): what each command leaves for the next step of a host script, the
parse that all four begin with, and the results of each. -/

namespace Sys2Proof.Machine

variable {s u : State} {src text key message : List Byte} {q : List Chunk} {rest : List Input}

/-! ### Steps of a script (R175) -/

@[simp] theorem runScript_nil (s : State) : runScript [] s = .ended s := rfl

@[simp] theorem afterScript_ended (t : State) (next : State → UseCase) :
    afterScript (.ended t) next = next t := rfl

@[simp] theorem afterScript_failed (t : State) (next : State → UseCase) :
    afterScript (.failed t) next = .failed t := rfl

/-- After a command that succeeds the script goes on. -/
theorem runScript_of_succeeded {i : Instr} (hwf : i.wf = true) (h : exec i s = .next u.succeeded) :
    runScript (issue i :: rest) s = runScript rest u.succeeded :=
  runScript_success (decodeOfEncodeIsTheCommand i hwf) h rfl

/-- At a command that fails the script ends. -/
theorem runScript_of_failed {i : Instr} {k : FailKind} {off : Option Nat} {tag : Option Word}
    (hwf : i.wf = true) (h : exec i s = .next (u.failed k off tag)) :
    runScript (issue i :: rest) s = .failed (u.failed k off tag) :=
  runScript_failure (decodeOfEncodeIsTheCommand i hwf) h (failed_status_ne_zero u k off tag)

/-! ### The parse of the source (R161) -/

/-- The state that a successful parse of `src` leaves. -/
def State.parsed (src : List Byte) (q : List Chunk) (s : State) : State :=
  State.succeeded { s with ibuf := src, cseq := q, cur := src.length }

@[simp] theorem parsed_cseq (src : List Byte) (q : List Chunk) (s : State) : (s.parsed src q).cseq = q := rfl

@[simp] theorem parsed_cur (src : List Byte) (q : List Chunk) (s : State) :
    (s.parsed src q).cur = src.length := rfl

/-- Every use-case begins by loading the source and parsing it. -/
theorem runScript_parse_ok (h : contParse sigBytes Config.TAG_CHECK_ON_PARSE src = .ok q) :
    runScript (.access (.loadIbuf src) :: issue .ctParse :: rest) s = runScript rest (s.parsed src q) :=
  runScript_of_succeeded rfl (exec_ctParse_of_ok (s := { s with ibuf := src }) h)

/-- A failed parse ends the script with the container and `OBUF` of the start. -/
theorem runScript_parse_error {f : StreamFail}
    (h : contParse sigBytes Config.TAG_CHECK_ON_PARSE src = .error f) :
    runScript (.access (.loadIbuf src) :: issue .ctParse :: rest) s =
      .failed (State.failed f.kind (some f.offset) f.tag { s with ibuf := src }) :=
  runScript_of_failed rfl (exec_ctParse_of_error (s := { s with ibuf := src }) h)

/-- Settles O60: the four scripts begin with the same parse, and what follows it is not reached. -/
theorem useCasesStopAtAFailedParse : Obligations.UseCasesStopAtAFailedParse := by
  intro s src text message f h
  refine ⟨State.failed f.kind (some f.offset) f.tag { s with ibuf := src }, ?_, ?_, ?_, ?_,
    rfl, rfl, rfl, rfl⟩
  · rw [embed, embedScript, runScript_parse_error h, afterScript_failed]
  · rw [extract, extractScript, runScript_parse_error h, afterScript_failed]
  · rw [delete, deleteScript, runScript_parse_error h, afterScript_failed]
  · rw [render, renderScript, runScript_parse_error h, afterScript_failed]

/-! ### `EMBED` (R176) -/

/-- The host's way to a new chunk in `W`: the tag from its text, the payload from `PBUF`, and `CH.NEW`. -/
theorem runScript_newChunk {tag : Word} (htext : fourLetters (be32 tag))
    (hlen : message.length ≤ 4294967295) :
    runScript (issue (.tagLdt (be32 tag)) :: .access (.loadPbuf message) :: issue .chNew :: rest) s =
      runScript rest (State.succeeded { s with
        tag := tag, pbuf := message,
        w := WorkReg.ofChunk { tag := tag, pay := message, crc := chunkCrc tag message } }) := by
  rw [runScript_of_succeeded rfl (exec_tagLdt_of_fourLetters htext s), rd32_be32, runScript_loadPbuf,
    runScript_of_succeeded rfl (exec_chNew_of_le hlen)]
  rfl

/-- A chunk in `W` is appended to the container, which is then serialized. -/
theorem runScript_append_serialize {c : Chunk} (hw : s.w = WorkReg.ofChunk c) :
    runScript [issue .ctApp, issue .ctSer] s = .ended (State.succeeded { s with
      cseq := s.cseq ++ [c], obuf := contSer sigBytes (s.cseq ++ [c]) }) := by
  have hv : s.w.v = true := hw ▸ ofChunk_v c
  rw [runScript_of_succeeded rfl (exec_ctApp_of_chunk hv), runScript_of_succeeded rfl (exec_ctSer _),
    runScript_nil, hw]
  rfl

/-- Settles O55: the source is the serialized form of its container, which gains the new chunk at its end. -/
theorem embedAppendsOneFrame : Obligations.EmbedAppendsOneFrame := by
  rintro s src _ message tag q h rfl htext hlen
  obtain ⟨rfl, -, -⟩ := contParse_ok h
  rw [embed, embedScript, runScript_parse_ok h, runScript_newChunk htext hlen,
    runScript_append_serialize rfl, afterScript_ended, readObuf_eq]
  refine ⟨_, congrArg (UseCase.output · _) ?_, rfl, rfl, rfl⟩
  simp [contSer_append, chunkSer_eq_frameBytes, chunkCrc, tagBytes]

/-! ### `EXTRACT` (R177) -/

/-- A key that is some tag's bytes fits its count byte (R76). -/
theorem key_length_le_of_tag {tag : Word} (h : be32 tag = key) : key.length ≤ 255 := by
  rw [← h, be32_length]
  decide

theorem wf_ctFind (h : key.length ≤ 255) : (Instr.ctFind key).wf = true := decide_eq_true h

/-- The state that a hit of `CT.FIND` leaves (R164). -/
def State.found (i : Nat) (c : Chunk) (s : State) : State :=
  State.succeeded { s.writeHit true with idx := i, w := WorkReg.ofChunk c }

@[simp] theorem found_hit (i : Nat) (c : Chunk) (s : State) : (s.found i c).fl.hit = true := rfl

/-- After a hit the use-case is `CH.TXT` on the chunk that was found. -/
theorem extract_of_hit {i : Nat} {c : Chunk} (h : contParse sigBytes Config.TAG_CHECK_ON_PARSE src = .ok q)
    (hkey : key.length ≤ 255) (hfind : findFirst q key = some (i, c)) :
    extract src key s =
      afterScript (runScript [issue .chTxt] ((s.parsed src q).found i c)) (readObuf .text) := by
  have hstep := exec_ctFind_of_hit (s := s.parsed src q) hfind
  rw [extract, extractScript, runScript_parse_ok h, runScript_of_succeeded (wf_ctFind hkey) hstep,
    runScript_nil, afterScript_ended]
  exact if_pos (found_hit i c _)

/-- Settles O56: whether the key is some chunk's tag decides, and then whether the payload is text. -/
theorem extractGivesTheFirstPayload : Obligations.ExtractGivesTheFirstPayload := by
  refine ⟨fun s src key before after c h hbefore hc => ?_, fun s src key q h hkey hmiss => ?_⟩
  · have hkey := key_length_le_of_tag hc
    rw [extract_of_hit h hkey (findFirst_hit hbefore hc)]
    cases hvalid : utf8Valid c.pay with
    | true =>
      rw [runScript_of_succeeded rfl (exec_chTxt_of_text rfl ((utf8Valid_iff c.pay).mp hvalid)),
        runScript_nil, afterScript_ended, readObuf_eq]
      exact ⟨_, fun _ => rfl, nofun⟩
    | false =>
      rw [runScript_of_failed rfl (exec_chTxt_of_not_text rfl ((utf8Valid_eq_false_iff c.pay).mp hvalid)),
        afterScript_failed]
      exact ⟨_, nofun, fun _ => ⟨rfl, rfl, rfl⟩⟩
  · have hstep := exec_ctFind_of_miss (s := s.parsed src q) (findFirst_none.mpr hmiss)
    rw [extract, extractScript, runScript_parse_ok h, runScript_of_succeeded (wf_ctFind hkey) hstep,
      runScript_nil, afterScript_ended]
    exact ⟨_, if_neg Bool.false_ne_true, rfl, rfl⟩

/-! ### `EXTRACT` after `EMBED` (R176, R177) -/

/-- A source with a good frame behind it parses to its container with that chunk at the end (R157). -/
theorem contParse_append_frame {sig : List Byte} {check : Bool} {c : Chunk} (hsig : sig.length = 8)
    (h : contParse sig check src = .ok q) (hc : chunkOk c) (htag : fourLetters (be32 c.tag)) :
    contParse sig check (src ++ chunkSer c) = .ok (q ++ [c]) := by
  obtain ⟨rfl, hok, hvalid⟩ := contParse_ok h
  have hser : contSer sig q ++ chunkSer c = contSer sig (q ++ [c]) := by simp [contSer_append]
  rw [hser]
  refine contParse_contSer hsig ?_ fun hcheck => ?_
  · exact List.forall_mem_append.mpr ⟨hok, List.forall_mem_singleton.mpr hc⟩
  · have hletters : ∀ d ∈ q, fourLetters (be32 d.tag) := fun d hd =>
      (tagValid_iff d.tag).mp (hvalid hcheck d hd)
    exact List.forall_mem_append.mpr ⟨hletters, List.forall_mem_singleton.mpr htag⟩

/-- Settles O57: the output of `EMBED` parses to a container whose first chunk with the tag is the new one. -/
theorem extractUndoesEmbed : Obligations.ExtractUndoesEmbed := by
  intro s s' src text message q h hfresh htext hlen hvalid
  obtain ⟨tag, rfl⟩ := exists_be32 htext.1
  obtain ⟨t, hembed, -⟩ := embedAppendsOneFrame s src _ message tag q h rfl htext hlen
  have hparse := contParse_append_frame sigBytes_length h
    (c := { tag := tag, pay := message, crc := crc32 (be32 tag ++ message) }) ⟨rfl, hlen⟩ htext
  obtain ⟨hgives, -⟩ := extractGivesTheFirstPayload
  obtain ⟨t', htext', -⟩ := hgives s' _ _ q [] _ hparse hfresh rfl
  exact ⟨_, t, t', hembed, htext' hvalid⟩

/-! ### `DELETE` (R178) -/

theorem wf_ctRem (h : key.length ≤ 255) : (Instr.ctRem key).wf = true := decide_eq_true h

/-- Settles O58: whether the key is some chunk's tag decides whether `CT.REM` succeeds. -/
theorem deleteCutsTheFirstFrame : Obligations.DeleteCutsTheFirstFrame := by
  refine ⟨fun s src key before after c h hbefore hc => ?_, fun s src key q h hkey hmiss => ?_⟩
  · have hkey := key_length_le_of_tag hc
    have hstep := exec_ctRem_of_hit (s := s.parsed src (before ++ c :: after)) (findFirst_hit hbefore hc)
    rw [parsed_cseq, removeAt_append] at hstep
    rw [delete, deleteScript, runScript_parse_ok h, runScript_of_succeeded (wf_ctRem hkey) hstep,
      runScript_of_succeeded rfl (exec_ctSer _), runScript_nil, afterScript_ended, readObuf_eq]
    exact ⟨_, rfl, rfl, rfl⟩
  · have hstep := exec_ctRem_of_miss (s := s.parsed src q) (findFirst_none.mpr hmiss)
    rw [delete, deleteScript, runScript_parse_ok h, runScript_of_failed (wf_ctRem hkey) hstep,
      afterScript_failed]
    exact ⟨_, rfl, rfl, rfl⟩

/-! ### `RENDER` (R179) -/

/-- The row of the listing that a chunk gives. -/
def chunkRow (c : Chunk) : Nat × Nat × Nat := (c.tag.toNat, c.pay.length, c.crc.toNat)

theorem readRow_of_getElem? {i : Nat} {c : Chunk} (h : s.cseq[i]? = some c) :
    readRow s i = some (chunkRow c) := by
  simp [readRow, readTarget, h, chunkRow]

/-- Entries that all exist are read in the order in which they are named. -/
theorem readRows_of_forall₂ {is : List Nat} {rows : List (Nat × Nat × Nat)}
    (h : List.Forall₂ (fun i row => readRow s i = some row) is rows) : readRows s is = some rows := by
  induction h with
  | nil => rfl
  | cons hrow _ ih => simp only [readRows, hrow, ih]

/-- The indices of the container name all of its chunks, in sequence order. -/
theorem readRows_range (s : State) :
    readRows s (List.range s.cseq.length) = some (s.cseq.map chunkRow) := by
  refine readRows_of_forall₂ (List.forall₂_iff_get.mpr ⟨by simp, fun i hi _ => ?_⟩)
  have hlt : i < s.cseq.length := by simpa using hi
  simpa using readRow_of_getElem? (List.getElem?_eq_getElem hlt)

/-- Settles O59: the script is the parse alone, and the host then reads every entry of the container. -/
theorem renderListsEveryChunk : Obligations.RenderListsEveryChunk := by
  intro s src q h
  refine ⟨s.parsed src q, ?_, parsed_cseq src q s, parsed_cur src q s⟩
  rw [render, renderScript, runScript_parse_ok h, runScript_nil, afterScript_ended, readRows_range]
  rfl

end Sys2Proof.Machine
end

section
/-! How a command fails (R185 to R192): which failure each command can raise and what it names, said once as
a relation, and the item that a failed parse names. -/

namespace Sys2Proof.Machine

variable {s t : State} {i : Instr} {sig buf : List Byte} {check : Bool} {o : Nat}

/-! ### The failures of each command (R185, R187) -/

/-- The failures a command can raise from the state `s`, each with the offset and the tag it names (R187). -/
inductive Raises (s : State) : Instr → FailKind → Option Nat → Option Word → Prop
  | tagLdt (text : List Byte) : Raises s (.tagLdt text) .formatError none none
  | chNew : Raises s .chNew .formatError none (some s.tag)
  | chParse {f : FrameFail} (h : chunkParse tagCheckOnParse (s.ibuf.drop s.cur) = .error f) :
      Raises s .chParse f.kind (some s.cur) f.tag
  | chTxt : Raises s .chTxt .encodingError none (some s.w.tag)
  | ctParse {f : StreamFail} (h : contParse sigBytes tagCheckOnParse s.ibuf = .error f) :
      Raises s .ctParse f.kind (some f.offset) f.tag
  | ctRem (key : List Byte) : Raises s (.ctRem key) .notFound none (textTag key)

/-- A command that answers a state has recorded its success in it, or one of its failures over the state
before it (R189, R190). -/
theorem exec_next_succeeded_or_raises (h : exec i s = .next t) :
    (∃ u : State, t = u.succeeded) ∨ ∃ k off tag, Raises s i k off tag ∧ t = s.failed k off tag := by
  cases i with
  | tagLdt text =>
    obtain ⟨-, -, ht⟩ | ⟨-, ht⟩ := execTagLdt_next h
    · exact .inl ⟨_, ht⟩
    · exact .inr ⟨_, _, _, .tagLdt text, ht⟩
  | chNew =>
    obtain ⟨-, ht⟩ | ⟨-, ht⟩ := execChNew_next h
    · exact .inl ⟨_, ht⟩
    · exact .inr ⟨_, _, _, .chNew, ht⟩
  | chParse =>
    obtain ⟨c, size, -, ht⟩ | ⟨f, hf, ht⟩ := execChParse_next h
    · exact .inl ⟨_, ht⟩
    · exact .inr ⟨_, _, _, .chParse (fromCursor_eq_drop s ▸ hf), ht⟩
  | chSer =>
    obtain ⟨-, ht⟩ := execChSer_next h
    exact .inl ⟨_, ht⟩
  | chTxt =>
    obtain ⟨-, ⟨-, ht⟩ | ⟨-, ht⟩⟩ := execChTxt_next h
    · exact .inl ⟨_, ht⟩
    · exact .inr ⟨_, _, _, .chTxt, ht⟩
  | ctParse =>
    obtain ⟨q, -, ht⟩ | ⟨f, hf, ht⟩ := execCtParse_next h
    · exact .inl ⟨_, ht⟩
    · exact .inr ⟨_, _, _, .ctParse hf, ht⟩
  | ctApp =>
    obtain ⟨-, ht⟩ := execCtApp_next h
    exact .inl ⟨_, ht⟩
  | ctFind key =>
    obtain ⟨j, c, -, ht⟩ | ⟨-, ht⟩ := execCtFind_next h
    · exact .inl ⟨_, ht⟩
    · exact .inl ⟨_, ht⟩
  | ctRem key =>
    obtain ⟨j, c, -, ht⟩ | ⟨-, ht⟩ := execCtRem_next h
    · exact .inl ⟨_, ht⟩
    · exact .inr ⟨_, _, _, .ctRem key, ht⟩
  | _ => exact .inl ⟨_, done_eq_next.mp h⟩

/-- A command that leaves a code other than 0 has raised one of its failures (R190). -/
theorem exec_failed_raises (h : exec i s = .next t) (h0 : t.status ≠ 0) :
    ∃ k off tag, Raises s i k off tag ∧ t = s.failed k off tag := by
  obtain ⟨u, rfl⟩ | hraises := exec_next_succeeded_or_raises h
  · exact absurd rfl h0
  · exact hraises

/-- Settles O38: the failure is recorded over the state before the command. -/
theorem aFailureChangesOnlyTheStatusRegisters : Obligations.AFailureChangesOnlyTheStatusRegisters := by
  intro i s t h h0
  obtain ⟨k, off, tag, -, rfl⟩ := exec_failed_raises h h0
  rfl

/-- Settles O39: a recorded failure leaves a code that is not 0, so the command recorded a success. -/
theorem aSuccessNamesNothing : Obligations.ASuccessNamesNothing := by
  intro i s t h h0
  obtain ⟨u, rfl⟩ | ⟨k, off, tag, rfl⟩ := exec_next_ends h
  · exact ⟨rfl, rfl, rfl⟩
  · exact absurd h0 (failed_status_ne_zero s k off tag)

/-- Settles O40, failure by failure: a parse raises the kinds of its deframer. -/
theorem eachCommandRaisesOnlyItsKinds : Obligations.EachCommandRaisesOnlyItsKinds := by
  intro i s t h
  obtain ⟨u, rfl⟩ | ⟨k, off, tag, hraises, rfl⟩ := exec_next_succeeded_or_raises h
  · exact .inl rfl
  rw [failed_status]
  cases hraises with
  | tagLdt text => simp [FailKind.code]
  | chNew => simp [FailKind.code]
  | chParse hf =>
    obtain hk | hk | ⟨hk, hcheck⟩ := chunkParse_error_kind (check := Config.TAG_CHECK_ON_PARSE) hf
    · simp [hk, FailKind.code]
    · simp [hk, FailKind.code]
    · simp [hk, FailKind.code, hcheck]
  | chTxt => simp [FailKind.code]
  | ctParse hf =>
    obtain hk | hk | hk | ⟨hk, hcheck⟩ := contParse_error_kind (check := Config.TAG_CHECK_ON_PARSE) hf
    · simp [hk, FailKind.code]
    · simp [hk, FailKind.code]
    · simp [hk, FailKind.code]
    · simp [hk, FailKind.code, hcheck]
  | ctRem key => simp [FailKind.code]

/-! ### The item that a failed parse names (R187) -/

/-- The deframer names the tag as soon as the 8 bytes up to it are there, whatever else is wrong (R139). -/
theorem chunkParse_error_tag {f : FrameFail} (h : chunkParse check buf = .error f) :
    f.tag = if buf.length < 8 then none else some (rd32 buf 4) := by
  by_cases h8 : buf.length < 8
  · rw [chunkParse_short h8] at h
    cases h
    rw [if_pos h8]
  · rw [if_neg h8]
    simp only [chunkParse, if_neg h8] at h
    split_ifs at h <;> cases h <;> rfl

/-- The tag field of what stands at an offset (R71). -/
theorem be32_rd32_drop (h : o + 8 ≤ buf.length) :
    be32 (rd32 (buf.drop o) 4) = slice buf (o + 4) (o + 8) := by
  rw [be32_rd32 _ _ (by rw [List.length_drop]; omega), slice, slice, List.drop_drop,
    Nat.add_sub_add_left]

/-- The report on the frame at an offset of `IBUF` names its tag exactly when the tag's bytes are there
(R187). -/
theorem failed_frame_report {f : FrameFail} (k : FailKind)
    (h : chunkParse check (s.ibuf.drop o) = .error f) :
    (s.ibuf.length < o + 8 →
      (s.failed k (some o) f.tag).eval = 1 ∧ (s.failed k (some o) f.tag).etag = 0) ∧
    (o + 8 ≤ s.ibuf.length → (s.failed k (some o) f.tag).eval = 3 ∧
      be32 (s.failed k (some o) f.tag).etag = slice s.ibuf (o + 4) (o + 8)) := by
  rw [chunkParse_error_tag h, List.length_drop]
  constructor
  · intro hshort
    rw [if_pos (by omega)]
    exact ⟨rfl, rfl⟩
  · intro hlong
    rw [if_neg (by omega)]
    exact ⟨rfl, be32_rd32_drop hlong⟩

/-- How a stream parse fails: the stream is too short, its signature is wrong, or behind the signature and
a run of good frames stands, at the offset that is named, the first frame that the deframer rejects (R157,
R191). -/
theorem contParse_error {f : StreamFail} (hsig : sig.length = 8) (h : contParse sig check buf = .error f) :
    (buf.length < 8 ∧ f = { kind := .truncatedInput, offset := 0, tag := none }) ∨
    f = { kind := .signatureMismatch, offset := 0, tag := none } ∨
    (8 ≤ buf.length ∧ f.offset < buf.length ∧
      (∃ q, buf.take f.offset = contSer sig q ∧ (∀ c ∈ q, chunkOk c) ∧
        (check = true → ∀ c ∈ q, fourLetters (be32 c.tag))) ∧
      ∃ g, chunkParse check (buf.drop f.offset) = .error g ∧ f.kind = g.kind ∧ f.tag = g.tag) := by
  by_cases h8 : buf.length < 8
  · rw [contParse_short h8] at h
    cases h
    exact .inl ⟨h8, rfl⟩
  have h8' := Nat.le_of_not_lt h8
  by_cases hs : buf.take 8 = sig
  · obtain ⟨rest, rfl⟩ : ∃ rest, buf = sig ++ rest := ⟨buf.drop 8, by rw [← hs, List.take_append_drop]⟩
    rw [contParse_sig rest hsig] at h
    obtain ⟨q, bad, g, rfl, hq, htag, hne, hg, rfl⟩ := contFrames_error (Nat.le_refl _) h
    have hpos := List.length_pos_iff.mpr hne
    have hoff : 8 + (framesOf q).length = (contSer sig q).length := by simp [contSer, hsig]
    have hbuf : sig ++ (framesOf q ++ bad) = contSer sig q ++ bad := by simp [contSer]
    have hlt : (contSer sig q).length < (contSer sig q ++ bad).length := by
      rw [List.length_append]
      omega
    rw [hbuf] at h8' ⊢
    rw [hoff]
    refine .inr (.inr ⟨h8', hlt, ⟨q, List.take_left, hq, ?_⟩, g, by rwa [List.drop_left], rfl, rfl⟩)
    exact fun hcheck c hc => (tagValid_iff c.tag).mp (htag hcheck c hc)
  · rw [contParse_wrong_signature h8' hs] at h
    cases h
    exact .inr (.inl rfl)

/-- The deframer of one frame never reports a signature (R139). -/
theorem chunkParse_error_code_ne_two {f : FrameFail} (h : chunkParse check buf = .error f) :
    f.kind.code ≠ 2 := by
  obtain hk | hk | ⟨hk, -⟩ := chunkParse_error_kind h <;> rw [hk] <;> decide

/-- Settles O41, command by command: a failure names what its row of the relation says, and for a parse the
reason of the failure tells which item that is. -/
theorem eachFailureNamesItsItem : Obligations.EachFailureNamesItsItem := by
  intro i s t h h0
  obtain ⟨k, off, tag, hraises, rfl⟩ := exec_failed_raises h h0
  refine ⟨?_, ?_, ?_, ?_, ?_, ?_⟩
  · rintro text rfl
    cases hraises
    exact ⟨rfl, rfl, rfl⟩
  · rintro rfl
    cases hraises
    exact ⟨rfl, rfl, rfl⟩
  · rintro rfl
    cases hraises
    exact ⟨rfl, rfl, rfl⟩
  · rintro key rfl
    cases hraises
    refine ⟨rfl, fun hkey => ?_, fun hkey => ?_⟩
    · obtain ⟨v, rfl⟩ := exists_be32 hkey
      rw [textTag_be32]
      exact ⟨rfl, rfl⟩
    · rw [textTag_of_length_ne hkey]
      exact ⟨rfl, rfl⟩
  · rintro rfl
    cases hraises with
    | chParse hf => exact ⟨rfl, failed_frame_report _ hf⟩
  · rintro rfl
    cases hraises with
    | ctParse hf =>
      obtain ⟨h8, rfl⟩ | rfl | ⟨h8, hoff, hbefore, g, hg, hkind, htag⟩ :=
        contParse_error sigBytes_length hf
      · exact ⟨fun _ => ⟨rfl, rfl, rfl⟩, fun hlong => absurd h8 (Nat.not_lt.mpr hlong)⟩
      · exact ⟨fun _ => ⟨rfl, rfl, rfl⟩, fun _ hstatus => absurd rfl hstatus⟩
      · rw [hkind, htag]
        refine ⟨?_, fun _ _ => ⟨hoff, hbefore, ⟨g, hg, rfl⟩, failed_frame_report g.kind hg⟩⟩
        rintro (hshort | hcode)
        · exact absurd hshort (Nat.not_lt.mpr h8)
        · exact absurd hcode (chunkParse_error_code_ne_two hg)

end Sys2Proof.Machine
end

section
/-! Completion (R223), the reset step (R210), and what the commands do right after reset (R213). -/

namespace Sys2Proof.Machine

/-! ### Completion (R149, R223) -/

/-- Settles O7: of the three ways a command ends, the refusal is the one that `W.V = 1` excludes. -/
theorem everyCommandCompletes : Obligations.EveryCommandCompletes := by
  intro i s hw
  obtain ⟨u, hdone⟩ | ⟨k, off, tag, hraise⟩ | ⟨-, hneeds, hempty⟩ := exec_shape i s
  · exact ⟨u.succeeded, hdone⟩
  · exact ⟨s.failed k off tag, hraise⟩
  · exact absurd (hw hneeds) (Bool.eq_false_iff.mp hempty)

/-! ### The reset step (R210) -/

@[simp] theorem perform_reset (s : State) :
    perform .reset s = .next { State.reset with inputs := s.inputs, delivered := s.delivered } := rfl

/-- Settles O49: the step takes the reset from the queue and performs it. -/
theorem resetReplacesTheWholeState : Obligations.ResetReplacesTheWholeState := by
  intro s rest hinputs
  rw [step_of_inputs_cons hinputs, perform_reset]

/-! ### The first command after reset (R213) -/

/-- The checksum of the chunk with the tag 0 and no payload (R213). -/
theorem chunkCrc_zero_nil : chunkCrc 0#32 [] = 0x2144DF1C#32 := by decide +kernel

theorem exec_ctSer_reset : exec .ctSer State.reset = .next { State.reset with obuf := sigBytes } := by
  rw [exec_ctSer]
  rfl

/-- `FL.HIT` is 0 already, so a miss writes nothing new. -/
theorem exec_ctFind_reset (key : List Byte) : exec (.ctFind key) State.reset = .next State.reset :=
  exec_ctFind_of_miss rfl

theorem exec_ctRem_reset (key : List Byte) :
    exec (.ctRem key) State.reset = .next (State.reset.failed .notFound none (textTag key)) :=
  exec_ctRem_of_miss rfl

theorem exec_ctParse_reset :
    exec .ctParse State.reset = .next (State.reset.failed .truncatedInput (some 0) none) :=
  exec_ctParse_of_error (contParse_short (by decide))

theorem exec_chParse_reset :
    exec .chParse State.reset = .next (State.reset.failed .truncatedInput (some 0) none) :=
  exec_chParse_of_error (chunkParse_short (by decide))

theorem exec_chNew_reset : exec .chNew State.reset = .next { State.reset with
    w := { v := true, tag := 0#32, pay := [], crc := 0x2144DF1C#32 } } := by
  rw [← chunkCrc_zero_nil]
  exact exec_chNew_of_le (Nat.zero_le _)

/-- The reset values of `CRCR` and `CRCO` already stand in the relation that `CRC.FIN` makes. -/
theorem exec_crcFin_reset : exec .crcFin State.reset = .next State.reset := by
  rw [exec_crcFin]
  rfl

/-- Settles O50, command by command; a command that needs no chunk completes in every state. -/
theorem commandsRightAfterReset : Obligations.CommandsRightAfterReset :=
  ⟨exec_ctSer_reset, exec_ctFind_reset, fun key => ⟨_, exec_ctRem_reset key, rfl⟩,
    ⟨_, exec_ctParse_reset, rfl⟩, ⟨_, exec_chParse_reset, rfl⟩, exec_chNew_reset, exec_crcFin_reset,
    exec_refused_of_no_chunk (.inl rfl) rfl, exec_refused_of_no_chunk (.inr (.inl rfl)) rfl,
    exec_refused_of_no_chunk (.inr (.inr rfl)) rfl,
    fun i hi => everyCommandCompletes i State.reset fun hneeds => absurd hneeds hi⟩

end Sys2Proof.Machine
end
